-- ==== Sys2Proof/Word.lean ====
section
/-! DEFINITION. The widths of BMPHC's data (rules R6, R7): bytes of the header buffer, 16-bit and 32-bit registers,
12-bit host addresses. -/

namespace Sys2Proof

/-- A byte of the header buffer (R23). -/
abbrev Byte := BitVec 8

/-- The content of a 16-bit field register (R26). -/
abbrev Half := BitVec 16

/-- The content of a 32-bit register, a bus value, a command word (R26, R50, R70). -/
abbrev Word := BitVec 32

/-- A host byte address, 0x000 to 0xFFF (R50). -/
abbrev Addr := BitVec 12

end Sys2Proof
end

