-- ==== Sys2Proof/Config.lean ====
section
/-! DEFINITION. The parameters of rule R6: the fixed sizes, and the two OPEN values, which have no body. -/

namespace Sys2Proof.Config

/-- FH_WIRE_SIZE (R6, R76). -/
def fhWireSize : Nat := 14

/-- IH_WIRE_SIZE (R6, R76). -/
def ihWireSize : Nat := 40

/-- CM_WIRE_SIZE (R6, R76). -/
def cmWireSize : Nat := 84

/-- HBUF_SIZE (R6, R23): 138 bytes. -/
def hbufSize : Nat := fhWireSize + ihWireSize + cmWireSize

/-- HBUF_RESET_CONTENT (R6, R34; 93 U1): `hbufResetContent n k` is byte `k` of HBUF after reset number `n`.
A free value: "A model draws them and proves nothing about them" (log 5). -/
opaque hbufResetContent : Nat → Nat → Byte

/-- PAD_FILL (R6, R126; 93 U8): the byte the host's pixel writer puts in row padding. A free value (log 9). -/
opaque padFill : Byte

end Sys2Proof.Config
end

