-- ==== Sys2Proof/Machine/State.lean ====
section
/-! DEFINITION. The state of BMPHC (rule R20), its reset value (R34), what the host can do to it (R10, R50, R170),
and the reasons a step can stop. -/

namespace Sys2Proof.Machine

/-- Why a step has no next state. -/
inductive Fault where
  /-- Raised by a host access (Machine/Bus.lean) to an unmapped address, of a width or alignment its region does not
  admit, or writing a read-only register (R51, R52, R54, R56). No state changes. Safe: the hardware goes on with the
  state unchanged and the model stops (log 3). -/
  | busError (a : Addr)
  /-- Raised by `step` when the host has no access pending: "BMPHC never acts unless the host accesses it" (R10).
  A stuck state, not an error of the hardware. Safe (log 4). -/
  | hostIdle
  deriving DecidableEq, Repr

/-- Why the model gives an instruction no meaning. -/
inductive Refusal where
  /-- Raised by an arm of `exec` for an instruction not modelled yet; safe. No arm raises it. -/
  | notModelled (mnemonic : String)
  deriving DecidableEq, Repr

/-- The FileHeader field registers (R24), at their widths. -/
structure FileRegs where
  type    : Half   -- FH_TYPE
  size    : Word   -- FH_SIZE
  res1    : Half   -- FH_RES1
  res2    : Half   -- FH_RES2
  offBits : Word   -- FH_OFFBITS
  deriving DecidableEq, Repr

/-- The InfoHeader field registers (R25), at their widths. Signed ones hold two's complement patterns (R26). -/
structure InfoRegs where
  size         : Word   -- IH_SIZE
  width        : Word   -- IH_WIDTH, signed
  height       : Word   -- IH_HEIGHT, signed
  planes       : Half   -- IH_PLANES
  bitCount     : Half   -- IH_BITCOUNT
  compression  : Word   -- IH_COMPRESSION
  sizeImage    : Word   -- IH_SIZEIMAGE
  xppm         : Word   -- IH_XPPM, signed
  yppm         : Word   -- IH_YPPM, signed
  clrUsed      : Word   -- IH_CLRUSED
  clrImportant : Word   -- IH_CLRIMPORTANT
  deriving DecidableEq, Repr

/-- The ColorMaskHeader field registers (R27). -/
structure MaskRegs where
  red    : Word             -- CM_RED
  green  : Word             -- CM_GREEN
  blue   : Word             -- CM_BLUE
  alpha  : Word             -- CM_ALPHA
  csType : Word             -- CM_CSTYPE
  unused : Vector Word 16   -- CM_UNUSED[0..15]
  deriving DecidableEq, Repr

/-- The six stored stride-calculator results (R28). -/
structure StrideRegs where
  channels  : Word   -- SC_CHANNELS
  rowStride : Word   -- SC_ROWSTRIDE
  aligned   : Word   -- SC_ALIGNED
  pad       : Word   -- SC_PAD
  bufSize   : Word   -- SC_BUFSIZE
  diskSize  : Word   -- SC_DISKSIZE
  deriving DecidableEq, Repr

/-- STATUS (R30): the three fields that have storage. Its reserved bits hold none and read 0. -/
structure Status where
  code   : BitVec 4   -- STATUS[3:0]
  sticky : Bool       -- STATUS[4]
  detail : BitVec 4   -- STATUS[11:8]
  deriving DecidableEq, Repr

/-- The widths of a host access: 1, 2 or 4 bytes (R10, R52). -/
inductive AccessSize where
  | byte
  | half
  | word
  deriving DecidableEq, Repr

/-- What the host can do to BMPHC: a bus access (R10), or asserting and releasing reset (R170, log 6). -/
inductive HostEvent where
  /-- A read of `n` bytes at `a`. -/
  | read (n : AccessSize) (a : Addr)
  /-- A write of `n` bytes at `a`; the bytes stand in `v[8n-1:0]` (R52). -/
  | write (n : AccessSize) (a : Addr) (v : Word)
  /-- The reset input asserted and released (R170). -/
  | reset
  deriving DecidableEq, Repr

/-- The bus's answer to an access that did not fault. -/
inductive Response where
  /-- Nothing answered since reset. -/
  | none
  /-- A write acknowledged (R32). -/
  | ack
  /-- The data of a read, zero-extended to 32 bits (R52). -/
  | data (v : Word)
  deriving DecidableEq, Repr

/-- Bytes by address in one canonical form (`Memory.wf` in Machine/Ops.lean): the HBUF bytes written since reset. An
address that is not listed has not been written since reset: it still holds its reset content, a free value (log 5). -/
abbrev Memory := List Host.Cell

/-- BMPHC's state: the parts of R20, and three fields of the model's own (`response`, `pending`, `resets`). -/
structure State where
  /-- HBUF (R23): the bytes written since reset. Read it with `State.hbufByte`. -/
  hbuf : Memory
  /-- The FileHeader field registers (R24). -/
  fh : FileRegs
  /-- The InfoHeader field registers (R25). -/
  ih : InfoRegs
  /-- The ColorMaskHeader field registers (R27). -/
  cm : MaskRegs
  /-- The stored stride-calculator results (R28). -/
  sc : StrideRegs
  /-- STATUS (R30). -/
  status : Status
  /-- The model's own: what the bus answered to the last access (log 2). -/
  response : Response
  /-- The model's own: the host's events to come, oldest first (log 1). -/
  pending : List HostEvent
  /-- The model's own: how many resets the machine has been through, which numbers the draw of HBUF's reset content
  (log 5). -/
  resets : Nat
  deriving DecidableEq, Repr

/-- The FH registers after reset (R34). -/
def FileRegs.reset : FileRegs := ⟨0, 0, 0, 0, 0⟩

/-- The IH registers after reset (R34). -/
def InfoRegs.reset : InfoRegs := ⟨0, 0, 0, 0, 0, 0, 0, 0, 0, 0, 0⟩

/-- The CM registers after reset (R34). -/
def MaskRegs.reset : MaskRegs := ⟨0, 0, 0, 0, 0, Vector.replicate 16 0⟩

/-- The SC registers after reset (R34). -/
def StrideRegs.reset : StrideRegs := ⟨0, 0, 0, 0, 0, 0⟩

/-- STATUS after reset (R34). -/
def Status.reset : Status := ⟨0, false, 0⟩

/-- BMPHC right after its first reset (R34, R170): every register 0, no HBUF byte written. -/
def State.reset : State where
  hbuf := []
  fh := .reset
  ih := .reset
  cm := .reset
  sc := .reset
  status := .reset
  response := .none
  pending := []
  resets := 0

end Sys2Proof.Machine
end

