-- ==== Sys2Proof/Syntax.lean ====
section
/-! DEFINITION. The commands: one constructor per row of spec/opcode_table.json (rule R71). -/

namespace Sys2Proof

/-- BMPHC's eleven commands. Commands take no operand but SYNTH's A bit (R70). -/
inductive Instr where
  /-- NOP (R141). -/
  | nop
  /-- DECFH: decode the FileHeader (R103). -/
  | decfh
  /-- DECIH: decode the InfoHeader (R104). -/
  | decih
  /-- DECCM: decode the ColorMaskHeader (R105). -/
  | deccm
  /-- ENCFH: encode the FileHeader (R106). -/
  | encfh
  /-- ENCIH: encode the InfoHeader (R107). -/
  | encih
  /-- ENCCM: encode the ColorMaskHeader (R108). -/
  | enccm
  /-- STRIDE: compute the row layout (R121). -/
  | stride
  /-- NORM: recompute the derived header fields (R122). -/
  | norm
  /-- SYNTH: synthesize the headers of a blank image; `a` is the A bit, 1 for 32-bit mode (R70, R123). -/
  | synth (a : Bool)
  /-- VALIDATE: report whether the decoded headers are accepted (R140). -/
  | validate
  deriving DecidableEq, Repr

end Sys2Proof
end

