-- ==== Sys2Proof/WellFormed.lean ====
section
/-! DEFINITION. When a term is one the hardware can be given: commands (rule R70) and host accesses (R52). -/

namespace Sys2Proof

/-- Well-formed commands. The A bit is the only operand and SYNTH takes both of its values (R70, R71), so the type
`Instr` already holds no ill-formed command: the illegal words of R73 are refused by the decoder, not here. -/
def Instr.wf : Instr → Bool
  | .nop => true
  | .decfh => true
  | .decih => true
  | .deccm => true
  | .encfh => true
  | .encih => true
  | .enccm => true
  | .stride => true
  | .norm => true
  | .synth _ => true
  | .validate => true

/-- Well-formed host events: the value of an `n`-byte write stands in `v[8n-1:0]` and nothing stands above it (R52).
The machine ignores what stands above (log 7). -/
def Machine.HostEvent.wf : Machine.HostEvent → Bool
  | .read _ _ => true
  | .write .byte _ v => v.toNat < 2 ^ 8
  | .write .half _ v => v.toNat < 2 ^ 16
  | .write .word _ _ => true
  | .reset => true

end Sys2Proof
end

