-- ==== Sys2Proof/Decode.lean ====
section
/-! DEFINITION. Command words (rules R70 to R73): the decoder, total on every 32-bit word and rejecting by name, and the
encoder after it. -/

namespace Sys2Proof

/-- Why a command word is illegal (R72); the details of IllegalCommand in R151. -/
inductive DecodeError where
  /-- OP is not in the opcode map (UNDEF_OP). -/
  | undefOp
  /-- A reserved bit is set, or the A bit on an opcode other than SYNTH's (RSV_BITS). -/
  | rsvBits
  deriving DecidableEq, Repr

/-- OP, `w[7:0]` (R70). -/
def opField (w : Word) : Byte := w.extractLsb' 0 8

/-- A, `w[8]` (R70). -/
def aField (w : Word) : Bool := w.getLsbD 8

/-- RSV, `w[31:9]` (R70). -/
def rsvField (w : Word) : BitVec 23 := w.extractLsb' 9 23

/-- SYNTH's opcode, the one that admits A = 1 (R71, R72). -/
def synthOp : Byte := 0x22

/-- The opcode map (R71): the command of an opcode, with its A bit; none for an undefined opcode. -/
def commandOfOp (op : Byte) (a : Bool) : Option Instr :=
  if op = 0x00 then some .nop
  else if op = 0x01 then some .decfh
  else if op = 0x02 then some .decih
  else if op = 0x03 then some .deccm
  else if op = 0x11 then some .encfh
  else if op = 0x12 then some .encih
  else if op = 0x13 then some .enccm
  else if op = 0x20 then some .stride
  else if op = 0x21 then some .norm
  else if op = synthOp then some (.synth a)
  else if op = 0x30 then some .validate
  else none

/-- Decoding a command word, in the order of R72: the opcode first, then the reserved bits and the A bit. -/
def decode (w : Word) : Except DecodeError Instr :=
  match commandOfOp (opField w) (aField w) with
  | none => .error .undefOp
  | some i =>
    if rsvField w ≠ 0 ∨ (aField w = true ∧ opField w ≠ synthOp) then .error .rsvBits else .ok i

/-- The word of a command (R71, "w must equal"). -/
def encode : Instr → Word
  | .nop => 0x00000000
  | .decfh => 0x00000001
  | .decih => 0x00000002
  | .deccm => 0x00000003
  | .encfh => 0x00000011
  | .encih => 0x00000012
  | .enccm => 0x00000013
  | .stride => 0x00000020
  | .norm => 0x00000021
  | .synth false => 0x00000022
  | .synth true => 0x00000122
  | .validate => 0x00000030

/-- The twelve legal words (R73). -/
def legalWords : List Word :=
  [0x00000000, 0x00000001, 0x00000002, 0x00000003, 0x00000011, 0x00000012, 0x00000013, 0x00000020, 0x00000021,
    0x00000022, 0x00000122, 0x00000030]

/-- The 32-bit command word of an opcode-table word: its low `nbits` bits, the bits above them 0. A command word is the
data of one bus write (R63, R70), so its bits stand as the table numbers them, in no byte order (log 8). -/
def tableWord (nbits w : Nat) : Word := BitVec.ofNat 32 (w % 2 ^ nbits)

/-- What the decoder reads from a table word of `nbits` bits; none where it refuses. -/
def decodeTableWord (nbits w : Nat) : Option Instr :=
  match decode (tableWord nbits w) with
  | .ok i => some i
  | .error _ => none

end Sys2Proof
end

