-- ==== Sys2Proof/Machine/Ops.lean ====
section
/-! DEFINITION. The primitives of rule R9 that every other rule uses to touch state: the bytes of HBUF, MemRead and
MemWrite, R[name], and the two ways a command ends, `complete()` and `raise Error(code, detail)` (R150 to R153). -/

namespace Sys2Proof.Machine

/-! ### HBUF as bytes -/

/-- What is listed at an address; none where nothing has been written since reset. -/
def Memory.get? : Memory → Nat → Option Byte
  | [], _ => none
  | (k, x) :: m, a => if a = k then some x else Memory.get? m a

/-- Write one byte, keeping the addresses rising. -/
def Memory.set : Memory → Nat → Byte → Memory
  | [], a, b => [(a, b)]
  | (k, x) :: m, a, b =>
    if a < k then (a, b) :: (k, x) :: m
    else if a = k then (a, b) :: m
    else (k, x) :: Memory.set m a b

/-- Write consecutive bytes from an address up. -/
def Memory.store : Memory → Nat → List Byte → Memory
  | m, _, [] => m
  | m, a, b :: bs => Memory.store (m.set a b) (a + 1) bs

/-- The canonical form of HBUF's bytes: addresses strictly rising and inside HBUF (R23). No entry says what an unlisted
address says, since an unlisted one says "not written since reset" and an entry says a byte. -/
abbrev Memory.wf (m : Memory) : Prop :=
  m.Pairwise (fun c d => c.1 < d.1) ∧ ∀ c ∈ m, c.1 < Config.hbufSize

/-- HBUF[k] (R9, R23): the byte last written there, or the free reset content where nothing has been written since
reset (R34; log 5). -/
def State.hbufByte (s : State) (k : Nat) : Byte :=
  match s.hbuf.get? k with
  | some b => b
  | none => Config.hbufResetContent s.resets k

/-! ### MemRead and MemWrite: little-endian, unaligned (R9, R57, R58) -/

/-- The number whose bytes, least significant first, are these: Σ b_i · 2^(8i) (R9). -/
def leValue : List Byte → Nat
  | [] => 0
  | b :: bs => b.toNat + 256 * leValue bs

/-- The low `n` bytes of a value, least significant first: byte i is `v[8i+7:8i]` (R7, R9). -/
def leBytes : Nat → Word → List Byte
  | 0, _ => []
  | n + 1, v => v.setWidth 8 :: leBytes n (v >>> 8)

/-- The `n` bytes of HBUF from an offset up. -/
def State.hbufBytes (s : State) : Nat → Nat → List Byte
  | _, 0 => []
  | off, n + 1 => s.hbufByte off :: State.hbufBytes s (off + 1) n

/-- MemRead(off, n) (R9), zero-extended to 32 bits. -/
def State.memRead (s : State) (off n : Nat) : Word := BitVec.ofNat 32 (leValue (s.hbufBytes off n))

/-- MemWrite(off, n, v) (R9). -/
def State.memWrite (s : State) (off n : Nat) (v : Word) : State :=
  { s with hbuf := s.hbuf.store off (leBytes n v) }

/-! ### R[name] -/

/-- The field registers, "named, not numbered" (R22, R24, R25, R27). -/
inductive FieldReg where
  | fhType | fhSize | fhRes1 | fhRes2 | fhOffBits
  | ihSize | ihWidth | ihHeight | ihPlanes | ihBitCount | ihCompression | ihSizeImage | ihXppm | ihYppm | ihClrUsed
  | ihClrImportant
  | cmRed | cmGreen | cmBlue | cmAlpha | cmCsType
  | cmUnused (i : Fin 16)
  deriving DecidableEq, Repr

/-- A register's width in bytes: 2 for the five 16-bit registers, 4 for the others (R26). -/
def FieldReg.bytes : FieldReg → Nat
  | .fhType => 2
  | .fhRes1 => 2
  | .fhRes2 => 2
  | .ihPlanes => 2
  | .ihBitCount => 2
  | _ => 4

/-- R[name] (R9): the register's value, zero-extended to 32 bits (R26). -/
def State.readField (s : State) : FieldReg → Word
  | .fhType => s.fh.type.setWidth 32
  | .fhSize => s.fh.size
  | .fhRes1 => s.fh.res1.setWidth 32
  | .fhRes2 => s.fh.res2.setWidth 32
  | .fhOffBits => s.fh.offBits
  | .ihSize => s.ih.size
  | .ihWidth => s.ih.width
  | .ihHeight => s.ih.height
  | .ihPlanes => s.ih.planes.setWidth 32
  | .ihBitCount => s.ih.bitCount.setWidth 32
  | .ihCompression => s.ih.compression
  | .ihSizeImage => s.ih.sizeImage
  | .ihXppm => s.ih.xppm
  | .ihYppm => s.ih.yppm
  | .ihClrUsed => s.ih.clrUsed
  | .ihClrImportant => s.ih.clrImportant
  | .cmRed => s.cm.red
  | .cmGreen => s.cm.green
  | .cmBlue => s.cm.blue
  | .cmAlpha => s.cm.alpha
  | .cmCsType => s.cm.csType
  | .cmUnused i => s.cm.unused[i]

/-- R[name] <- v (R9): the value truncated to the register's width (R26). -/
def State.writeField (s : State) (r : FieldReg) (v : Word) : State :=
  match r with
  | .fhType => { s with fh := { s.fh with type := v.setWidth 16 } }
  | .fhSize => { s with fh := { s.fh with size := v } }
  | .fhRes1 => { s with fh := { s.fh with res1 := v.setWidth 16 } }
  | .fhRes2 => { s with fh := { s.fh with res2 := v.setWidth 16 } }
  | .fhOffBits => { s with fh := { s.fh with offBits := v } }
  | .ihSize => { s with ih := { s.ih with size := v } }
  | .ihWidth => { s with ih := { s.ih with width := v } }
  | .ihHeight => { s with ih := { s.ih with height := v } }
  | .ihPlanes => { s with ih := { s.ih with planes := v.setWidth 16 } }
  | .ihBitCount => { s with ih := { s.ih with bitCount := v.setWidth 16 } }
  | .ihCompression => { s with ih := { s.ih with compression := v } }
  | .ihSizeImage => { s with ih := { s.ih with sizeImage := v } }
  | .ihXppm => { s with ih := { s.ih with xppm := v } }
  | .ihYppm => { s with ih := { s.ih with yppm := v } }
  | .ihClrUsed => { s with ih := { s.ih with clrUsed := v } }
  | .ihClrImportant => { s with ih := { s.ih with clrImportant := v } }
  | .cmRed => { s with cm := { s.cm with red := v } }
  | .cmGreen => { s with cm := { s.cm with green := v } }
  | .cmBlue => { s with cm := { s.cm with blue := v } }
  | .cmAlpha => { s with cm := { s.cm with alpha := v } }
  | .cmCsType => { s with cm := { s.cm with csType := v } }
  | .cmUnused i => { s with cm := { s.cm with unused := s.cm.unused.set i.val v i.isLt } }

/-! ### How a command ends -/

/-- The error codes (R150). `ioError` and `outOfBounds` are reserved for the host and never raised. -/
inductive ErrorCode where
  | ok | ioError | unrecognizedFormat | unsupportedOrientation | unsupportedFormat | invalidDimensions | outOfBounds
  | arithRange | illegalCommand
  deriving DecidableEq, Repr

/-- The pattern of a code in STATUS.CODE (R150). -/
def ErrorCode.bits : ErrorCode → BitVec 4
  | .ok => 0
  | .ioError => 1
  | .unrecognizedFormat => 2
  | .unsupportedOrientation => 3
  | .unsupportedFormat => 4
  | .invalidDimensions => 5
  | .outOfBounds => 6
  | .arithRange => 7
  | .illegalCommand => 8

/-- The detail codes (R151). -/
inductive Detail where
  | none | sig | ihTooSmall | mask | csType | negHeight | bpp | compression | widthNonpos | heightNonpos | negDim | range
  | undefOp | rsvBits
  deriving DecidableEq, Repr

/-- The pattern of a detail in STATUS.DETAIL (R151). -/
def Detail.bits : Detail → BitVec 4
  | .none => 0
  | .sig => 1
  | .ihTooSmall => 2
  | .mask => 3
  | .csType => 4
  | .negHeight => 5
  | .bpp => 6
  | .compression => 7
  | .widthNonpos => 8
  | .heightNonpos => 9
  | .negDim => 10
  | .range => 11
  | .undefOp => 12
  | .rsvBits => 13

/-- What a failing command reports: `Error(code, detail)` (R9). -/
structure CmdError where
  code   : ErrorCode
  detail : Detail
  deriving DecidableEq, Repr

/-- `raise Error(code, detail)` (R9, R152), the one way an error is taken: CODE, DETAIL and STICKY = 1, and nothing
else. Nothing is saved and there is no return from it (R153); `State.clearSticky` is the host's acknowledgement. -/
def State.raiseError (s : State) (e : CmdError) : State :=
  { s with status := { code := e.code.bits, sticky := true, detail := e.detail.bits } }

/-- `complete()` (R9): CODE = 0 and DETAIL = 0; STICKY is left as it was (R30). -/
def State.complete (s : State) : State :=
  { s with status := { s.status with code := 0, detail := 0 } }

/-- STICKY cleared by a STATUS write with bit 4 = 1 (R54, R153). -/
def State.clearSticky (s : State) : State :=
  { s with status := { s.status with sticky := false } }

/-- How a command ends, given the state it was issued in and what it computed: all of its writes, or none of them and
the error (R9, R152). -/
def State.finish (s : State) (r : Except CmdError State) : Host.Outcome State Fault Refusal :=
  match r with
  | .ok t => .next t.complete
  | .error e => .next (s.raiseError e)

/-- The bus answers an access. -/
def State.respond (s : State) (r : Response) : State := { s with response := r }

end Sys2Proof.Machine
end

