-- ==== Sys2Proof/Machine/Codec.lean ====
section
/-! DEFINITION. The header codec (rules R100 to R108): DECFH, DECIH, DECCM, ENCFH, ENCIH, ENCCM. -/

namespace Sys2Proof.Machine

/-- A header field: its register, its offset in HBUF and its bytes (R80 to R82, R100). -/
structure Field where
  reg : FieldReg
  off : Nat
  bytes : Nat
  deriving DecidableEq, Repr

/-- FH_FIELDS (R80, R100). -/
def fhFields : List Field :=
  [⟨.fhType, 0, 2⟩, ⟨.fhSize, 2, 4⟩, ⟨.fhRes1, 6, 2⟩, ⟨.fhRes2, 8, 2⟩, ⟨.fhOffBits, 10, 4⟩]

/-- IH_FIELDS (R81, R100). -/
def ihFields : List Field :=
  [⟨.ihSize, 14, 4⟩, ⟨.ihWidth, 18, 4⟩, ⟨.ihHeight, 22, 4⟩, ⟨.ihPlanes, 26, 2⟩, ⟨.ihBitCount, 28, 2⟩,
    ⟨.ihCompression, 30, 4⟩, ⟨.ihSizeImage, 34, 4⟩, ⟨.ihXppm, 38, 4⟩, ⟨.ihYppm, 42, 4⟩, ⟨.ihClrUsed, 46, 4⟩,
    ⟨.ihClrImportant, 50, 4⟩]

/-- CM_FIELDS (R82, R100). -/
def cmFields : List Field :=
  [⟨.cmRed, 54, 4⟩, ⟨.cmGreen, 58, 4⟩, ⟨.cmBlue, 62, 4⟩, ⟨.cmAlpha, 66, 4⟩, ⟨.cmCsType, 70, 4⟩] ++
    (List.finRange 16).map fun i => ⟨.cmUnused i, 74 + 4 * i.val, 4⟩

/-- Decode(L) (R100): each register from its bytes. -/
def decodeFields : List Field → State → State
  | [], s => s
  | f :: fs, s => decodeFields fs (s.writeField f.reg (s.memRead f.off f.bytes))

/-- Encode(L) (R100): each register's bytes into HBUF. -/
def encodeFields : List Field → State → State
  | [], s => s
  | f :: fs, s => encodeFields fs (s.memWrite f.off f.bytes (s.readField f.reg))

/-- DECFH (R103). -/
def execDecfh (s : State) : Host.Outcome State Fault Refusal := s.finish (.ok (decodeFields fhFields s))

/-- DECIH (R104). -/
def execDecih (s : State) : Host.Outcome State Fault Refusal := s.finish (.ok (decodeFields ihFields s))

/-- DECCM (R105): it runs whatever IH_BITCOUNT holds. -/
def execDeccm (s : State) : Host.Outcome State Fault Refusal := s.finish (.ok (decodeFields cmFields s))

/-- ENCFH (R106). -/
def execEncfh (s : State) : Host.Outcome State Fault Refusal := s.finish (.ok (encodeFields fhFields s))

/-- ENCIH (R107). -/
def execEncih (s : State) : Host.Outcome State Fault Refusal := s.finish (.ok (encodeFields ihFields s))

/-- ENCCM (R108): it runs in 24-bit mode too. -/
def execEnccm (s : State) : Host.Outcome State Fault Refusal := s.finish (.ok (encodeFields cmFields s))

end Sys2Proof.Machine
end

