-- ==== Sys2Proof/Machine/Operands.lean ====
section
/-! DEFINITION. How commands read their operands (rules R8, R70): patterns as signed integers, the channel mode, the A
bit. Commands have no other operand form. -/

namespace Sys2Proof.Machine

/-- sext_32 (R8): a 32-bit pattern read as a two's complement integer. -/
def sext32 (v : Word) : Int := if v.getLsbD 31 then (v.toNat : Int) - 2 ^ 32 else v.toNat

/-- enc_32 (R8): the 32-bit two's complement pattern of an integer. -/
def enc32 (n : Int) : Word := BitVec.ofInt 32 n

/-- The largest value a 32-bit register holds, 0xFFFFFFFF (R120, R122, R123). -/
def maxWord : Nat := 0xFFFFFFFF

/-- W, the image width as a signed integer (R28, R123). -/
def State.widthZ (s : State) : Int := sext32 s.ih.width

/-- H, the image height as a signed integer (R28, R123). -/
def State.heightZ (s : State) : Int := sext32 s.ih.height

/-- The channel mode: 32-bit mode is IH_BITCOUNT = 32 (R2, R31). -/
def State.mode32 (s : State) : Bool := s.ih.bitCount = 32

/-- The bits per pixel the A bit selects (R70, R123). -/
def bppOfA (a : Bool) : Half := if a then 32 else 24

end Sys2Proof.Machine
end

