-- ==== Sys2Proof/Machine/Flags.lean ====
section
/-! DEFINITION. FLAGS and its eight checks (rule R31) with the constants they compare with (R77, R78), SC_CONTIG (R29),
and STATUS as a word (R30). FLAGS and SC_CONTIG hold no storage: they are functions of the other state. -/

namespace Sys2Proof.Machine

/-- The BMP magic, 'B' then 'M' (R77). -/
def bmpMagic : Half := 0x4D42

/-- The one supported channel masks (R78). -/
def redMask : Word := 0x00FF0000
/-- See `redMask` (R78). -/
def greenMask : Word := 0x0000FF00
/-- See `redMask` (R78). -/
def blueMask : Word := 0x000000FF
/-- See `redMask` (R78). -/
def alphaMask : Word := 0xFF000000

/-- The colour-space tag "sRGB" (R78). -/
def srgbTag : Word := 0x73524742

/-- The least biSize of a 32-bit image, 40 + 84 (R6, R76). -/
def minInfoSize32 : Nat := 124

/-- FLAGS bit 0 (R31). -/
def State.sigOk (s : State) : Bool := s.fh.type = bmpMagic

/-- FLAGS bit 1, an unsigned compare (R31). -/
def State.sizeOk (s : State) : Bool := s.ih.bitCount ≠ 32 ∨ s.ih.size.toNat ≥ minInfoSize32

/-- FLAGS bit 2 (R31). -/
def State.maskOk (s : State) : Bool :=
  s.cm.red = redMask ∧ s.cm.green = greenMask ∧ s.cm.blue = blueMask ∧ s.cm.alpha = alphaMask

/-- FLAGS bit 3 (R31). -/
def State.csOk (s : State) : Bool := s.cm.csType = srgbTag

/-- FLAGS bit 4 (R31). -/
def State.orientOk (s : State) : Bool := s.heightZ ≥ 0

/-- FLAGS bit 5 (R31). -/
def State.bppOk (s : State) : Bool := s.ih.bitCount = 24 ∨ s.ih.bitCount = 32

/-- FLAGS bit 6 (R31). -/
def State.compOk (s : State) : Bool := s.ih.compression = 0 ∨ (s.ih.compression = 3 ∧ s.ih.bitCount = 32)

/-- FLAGS as read (R31): bit 7 is MODE32, bits [31:8] read 0. -/
def State.flagsWord (s : State) : Word :=
  0#24 ++ BitVec.ofBool s.mode32 ++ BitVec.ofBool s.compOk ++ BitVec.ofBool s.bppOk ++ BitVec.ofBool s.orientOk ++
    BitVec.ofBool s.csOk ++ BitVec.ofBool s.maskOk ++ BitVec.ofBool s.sizeOk ++ BitVec.ofBool s.sigOk

/-- SC_CONTIG as read (R29): bit 0 is 1 when SC_PAD = 0, bits [31:1] read 0. -/
def State.contigWord (s : State) : Word := if s.sc.pad = 0 then 1 else 0

/-- STATUS as read (R30): the reserved bits [31:12] and [7:5] read 0. -/
def Status.word (t : Status) : Word := 0#20 ++ t.detail ++ 0#3 ++ BitVec.ofBool t.sticky ++ t.code

end Sys2Proof.Machine
end

