-- ==== Sys2Proof/Machine/Stride.lean ====
section
/-! DEFINITION. The stride calculator and the derived-field commands (rules R79, R120 to R123): STRIDE, NORM, SYNTH. -/

namespace Sys2Proof.Machine

/-- The six naturals StrideCalc returns (R120). -/
structure StrideResult where
  channels : Nat
  row      : Nat
  aligned  : Nat
  pad      : Nat
  buf      : Nat
  disk     : Nat
  deriving DecidableEq, Repr

/-- StrideCalc(wpat, hpat, bpp) (R120), on exact integers. -/
def strideCalc (wpat hpat : Word) (bpp : Half) : Except CmdError StrideResult :=
  if sext32 wpat < 0 ∨ sext32 hpat < 0 then .error ⟨.arithRange, .negDim⟩
  else
    let w := (sext32 wpat).toNat
    let h := (sext32 hpat).toNat
    let c := bpp.toNat / 8
    let row := w * c
    let aligned := 4 * ((row + 3) / 4)
    let disk := h * aligned
    if aligned > maxWord ∨ disk > maxWord then .error ⟨.arithRange, .range⟩
    else .ok { channels := c, row := row, aligned := aligned, pad := aligned - row, buf := w * h * c, disk := disk }

/-- The six SC_* registers written together (R28, R121). -/
def StrideResult.regs (r : StrideResult) : StrideRegs where
  channels := BitVec.ofNat 32 r.channels
  rowStride := BitVec.ofNat 32 r.row
  aligned := BitVec.ofNat 32 r.aligned
  pad := BitVec.ofNat 32 r.pad
  bufSize := BitVec.ofNat 32 r.buf
  diskSize := BitVec.ofNat 32 r.disk

/-- The normalized biSize (R79). -/
def normInfoSize (m32 : Bool) : Nat := if m32 then 124 else 40

/-- The normalized bfOffBits, the header bytes of a file (R79). -/
def normOffBits (m32 : Bool) : Nat := if m32 then 138 else 54

/-- StrideCalc and the file size off + disk of NORM and SYNTH, with its range check (R122, R123). -/
def layoutCalc (wpat hpat : Word) (bpp : Half) (m32 : Bool) : Except CmdError (StrideResult × Nat) :=
  match strideCalc wpat hpat bpp with
  | .error e => .error e
  | .ok r =>
    let fsize := normOffBits m32 + r.disk
    if fsize > maxWord then .error ⟨.arithRange, .range⟩ else .ok (r, fsize)

/-- STRIDE (R121). -/
def execStride (s : State) : Host.Outcome State Fault Refusal :=
  s.finish <|
    match strideCalc s.ih.width s.ih.height s.ih.bitCount with
    | .error e => .error e
    | .ok r => .ok { s with sc := r.regs }

/-- NORM (R122). -/
def execNorm (s : State) : Host.Outcome State Fault Refusal :=
  s.finish <|
    match layoutCalc s.ih.width s.ih.height s.ih.bitCount s.mode32 with
    | .error e => .error e
    | .ok (r, fsize) =>
      .ok { s with
        ih := { s.ih with size := BitVec.ofNat 32 (normInfoSize s.mode32) }
        fh := { s.fh with offBits := BitVec.ofNat 32 (normOffBits s.mode32), size := BitVec.ofNat 32 fsize }
        sc := r.regs }

/-- The ColorMaskHeader SYNTH writes in both modes (R78, R123). -/
def canonicalMasks : MaskRegs where
  red := redMask
  green := greenMask
  blue := blueMask
  alpha := alphaMask
  csType := srgbTag
  unused := Vector.replicate 16 0

/-- SYNTH with its A bit (R123). -/
def execSynth (a : Bool) (s : State) : Host.Outcome State Fault Refusal :=
  s.finish <|
    if s.widthZ ≤ 0 then .error ⟨.invalidDimensions, .widthNonpos⟩
    else if s.heightZ ≤ 0 then .error ⟨.invalidDimensions, .heightNonpos⟩
    else
      match layoutCalc s.ih.width s.ih.height (bppOfA a) a with
      | .error e => .error e
      | .ok (r, fsize) =>
        .ok { s with
          fh := {
            type := bmpMagic
            size := BitVec.ofNat 32 fsize
            res1 := 0
            res2 := 0
            offBits := BitVec.ofNat 32 (normOffBits a) }
          ih := {
            size := BitVec.ofNat 32 (normInfoSize a)
            width := s.ih.width
            height := s.ih.height
            planes := 1
            bitCount := bppOfA a
            compression := if a then 3 else 0
            sizeImage := 0
            xppm := 0
            yppm := 0
            clrUsed := 0
            clrImportant := 0 }
          cm := canonicalMasks
          sc := r.regs }

end Sys2Proof.Machine
end

