-- ==== Sys2Proof/Machine/Validate.lean ====
section
/-! DEFINITION. VALIDATE and NOP (rules R140, R141). -/

namespace Sys2Proof.Machine

/-- VALIDATE's verdict (R140): the first failing check in DOC's order, none where the headers are accepted. -/
def State.verdict (s : State) : Option CmdError :=
  if !s.sigOk then some ⟨.unrecognizedFormat, .sig⟩
  else if s.mode32 && !s.sizeOk then some ⟨.unrecognizedFormat, .ihTooSmall⟩
  else if s.mode32 && !s.maskOk then some ⟨.unsupportedFormat, .mask⟩
  else if s.mode32 && !s.csOk then some ⟨.unsupportedFormat, .csType⟩
  else if !s.orientOk then some ⟨.unsupportedOrientation, .negHeight⟩
  else if !s.bppOk then some ⟨.unsupportedFormat, .bpp⟩
  else if !s.compOk then some ⟨.unsupportedFormat, .compression⟩
  else none

/-- VALIDATE (R140): it writes STATUS only. -/
def execValidate (s : State) : Host.Outcome State Fault Refusal :=
  s.finish <|
    match s.verdict with
    | some e => .error e
    | none => .ok s

/-- NOP (R141). -/
def execNop (s : State) : Host.Outcome State Fault Refusal := s.finish (.ok s)

end Sys2Proof.Machine
end

