-- ==== Sys2Proof/Machine/Dispatch.lean ====
section
/-! DEFINITION. Which meaning each command has (rule R71). -/

namespace Sys2Proof.Machine

def exec (i : Instr) (s : State) : Host.Outcome State Fault Refusal :=
  match i with
  -- 42_validate.md
  | .nop => Sys2Proof.Machine.execNop s
  -- 40_codec.md
  | .decfh => Sys2Proof.Machine.execDecfh s
  | .decih => Sys2Proof.Machine.execDecih s
  | .deccm => Sys2Proof.Machine.execDeccm s
  | .encfh => Sys2Proof.Machine.execEncfh s
  | .encih => Sys2Proof.Machine.execEncih s
  | .enccm => Sys2Proof.Machine.execEnccm s
  -- 41_stride.md
  | .stride => Sys2Proof.Machine.execStride s
  | .norm => Sys2Proof.Machine.execNorm s
  | .synth a => Sys2Proof.Machine.execSynth a s
  -- 42_validate.md
  | .validate => Sys2Proof.Machine.execValidate s

end Sys2Proof.Machine
end

