-- ==== Sys2Proof/Machine/Bus.lean ====
section
/-! DEFINITION. The host address space and what an access does (rules R50 to R57, R72), the reset input (R170), and the
taking of the host's next event (R10). -/

namespace Sys2Proof.Machine

/-! ### REGMAP -/

/-- The six result registers (R28). -/
inductive ScReg where
  | channels | rowStride | aligned | pad | bufSize | diskSize
  deriving DecidableEq, Repr

/-- The registers the host reaches, one address each (R50). -/
inductive RegName where
  | field (r : FieldReg)
  | sc (r : ScReg)
  | scContig
  | cmd
  | status
  | flags
  deriving DecidableEq, Repr

/-- A field register's address (R24, R25, R27). -/
def FieldReg.addr : FieldReg → Nat
  | .fhType => 0x100
  | .fhSize => 0x104
  | .fhRes1 => 0x108
  | .fhRes2 => 0x10C
  | .fhOffBits => 0x110
  | .ihSize => 0x120
  | .ihWidth => 0x124
  | .ihHeight => 0x128
  | .ihPlanes => 0x12C
  | .ihBitCount => 0x130
  | .ihCompression => 0x134
  | .ihSizeImage => 0x138
  | .ihXppm => 0x13C
  | .ihYppm => 0x140
  | .ihClrUsed => 0x144
  | .ihClrImportant => 0x148
  | .cmRed => 0x160
  | .cmGreen => 0x164
  | .cmBlue => 0x168
  | .cmAlpha => 0x16C
  | .cmCsType => 0x170
  | .cmUnused i => 0x180 + 4 * i.val

/-- A result register's address (R28). -/
def ScReg.addr : ScReg → Nat
  | .channels => 0x200
  | .rowStride => 0x204
  | .aligned => 0x208
  | .pad => 0x20C
  | .bufSize => 0x210
  | .diskSize => 0x214

/-- A register's address (R24 to R32, R50). -/
def RegName.addr : RegName → Nat
  | .field r => r.addr
  | .sc r => r.addr
  | .scContig => 0x218
  | .cmd => 0x300
  | .status => 0x304
  | .flags => 0x308

/-- The field registers, in address order (R24, R25, R27). -/
def allFieldRegs : List FieldReg :=
  [.fhType, .fhSize, .fhRes1, .fhRes2, .fhOffBits, .ihSize, .ihWidth, .ihHeight, .ihPlanes, .ihBitCount,
    .ihCompression, .ihSizeImage, .ihXppm, .ihYppm, .ihClrUsed, .ihClrImportant, .cmRed, .cmGreen, .cmBlue, .cmAlpha,
    .cmCsType] ++ (List.finRange 16).map .cmUnused

/-- REGMAP (R50): the 47 registers. -/
def regMap : List RegName :=
  allFieldRegs.map .field ++ [ScReg.channels, .rowStride, .aligned, .pad, .bufSize, .diskSize].map .sc ++
    [.scContig, .cmd, .status, .flags]

/-- The register at an address; none where none is (R50, R51). -/
def regAt (a : Nat) : Option RegName := regMap.find? fun r => r.addr = a

/-! ### Accesses -/

/-- n, the bytes of an access (R52). -/
def AccessSize.bytes : AccessSize → Nat
  | .byte => 1
  | .half => 2
  | .word => 4

/-- What an access reaches (R52, R53): HBUF where it lies wholly in 0x000..0x089, a register where it is a 4-byte access
at the register's 4-aligned address, and nothing otherwise. -/
inductive Target where
  | hbuf (off : Nat)
  | reg (r : RegName)
  | nothing
  deriving DecidableEq, Repr

/-- The conditions of HostRead and HostWrite, in their order (R52). -/
def target (n : AccessSize) (a : Addr) : Target :=
  if a.toNat + n.bytes - 1 ≤ 0x089 then .hbuf a.toNat
  else if n = .word ∧ a.toNat % 4 = 0 then
    match regAt a.toNat with
    | some r => .reg r
    | none => .nothing
  else .nothing

/-- A result register's value (R28). -/
def StrideRegs.read (sc : StrideRegs) : ScReg → Word
  | .channels => sc.channels
  | .rowStride => sc.rowStride
  | .aligned => sc.aligned
  | .pad => sc.pad
  | .bufSize => sc.bufSize
  | .diskSize => sc.diskSize

/-- RegRead (R53): a register's 32-bit read value. CMD reads 0 (R32, R54). -/
def State.regRead (s : State) : RegName → Word
  | .field r => s.readField r
  | .sc r => s.sc.read r
  | .scContig => s.contigWord
  | .cmd => 0
  | .status => s.status.word
  | .flags => s.flagsWord

/-- The detail that reports a decoding error (R72, R151). -/
def detailOf : DecodeError → Detail
  | .undefOp => .undefOp
  | .rsvBits => .rsvBits

/-- Execute(w) (R72): the command a word encodes, to completion (R32). -/
def executeWord (w : Word) (s : State) : Host.Outcome State Fault Refusal :=
  match decode w with
  | .error e => .next (s.raiseError ⟨.illegalCommand, detailOf e⟩)
  | .ok i => exec i s

/-- A write of `v` to STATUS (R30, R54): bit 4 clears STICKY, all other bits are ignored. -/
def State.writeStatus (s : State) (v : Word) : State := if v.getLsbD 4 then s.clearSticky else s

/-- RegWrite (R53, R54) of `v` to a register, through the access at `a`; the write is acknowledged. -/
def State.regWrite (s : State) (a : Addr) (v : Word) : RegName → Host.Outcome State Fault Refusal
  | .field r => .next ((s.writeField r v).respond .ack)
  | .sc _ => .fault (.busError a)
  | .scContig => .fault (.busError a)
  | .cmd => executeWord v (s.respond .ack)
  | .status => .next ((s.writeStatus v).respond .ack)
  | .flags => .fault (.busError a)

/-- HostRead(a, n) (R52); a bus error is a fault of the step, never a value (R56, log 3). -/
def hostRead (n : AccessSize) (a : Addr) (s : State) : Host.Outcome State Fault Refusal :=
  match target n a with
  | .hbuf off => .next (s.respond (.data (s.memRead off n.bytes)))
  | .reg r => .next (s.respond (.data (s.regRead r)))
  | .nothing => .fault (.busError a)

/-- HostWrite(a, n, v) (R52). -/
def hostWrite (n : AccessSize) (a : Addr) (v : Word) (s : State) : Host.Outcome State Fault Refusal :=
  match target n a with
  | .hbuf off => .next ((s.memWrite off n.bytes v).respond .ack)
  | .reg r => s.regWrite a v r
  | .nothing => .fault (.busError a)

/-- The reset input released (R170): every register at its reset value, every HBUF byte unspecified again (log 6). What
the host is about to do is not BMPHC's state, and stays. -/
def State.pulseReset (s : State) : State :=
  { State.reset with pending := s.pending, resets := s.resets + 1 }

/-- What one event of the host does (R10, R170). -/
def hostEvent (e : HostEvent) (s : State) : Host.Outcome State Fault Refusal :=
  match e with
  | .read n a => hostRead n a s
  | .write n a v => hostWrite n a v s
  | .reset => .next s.pulseReset

/-- One step (R10): the host's next event. With none pending no step exists (log 4). -/
def hostStep (s : State) : Host.Outcome State Fault Refusal :=
  match s.pending with
  | [] => .fault .hostIdle
  | e :: es => hostEvent e { s with pending := es }

/-- The host makes `e` its next event. -/
def State.issue (s : State) (e : HostEvent) : State := { s with pending := e :: s.pending }

/-- The write that runs a command word (R32): 4 bytes to CMD. -/
def cmdWrite (w : Word) : HostEvent := .write .word 0x300 w

/-- The state the host goes on from after a step that ended in a bus error: BMPHC unchanged, the access over (R56,
log 3). -/
def State.afterBusError (s : State) : State := { s with pending := s.pending.tail }

end Sys2Proof.Machine
end

