-- ==== Sys2Proof/Machine/Step.lean ====
section
/-! DEFINITION. The step of the machine (rule R10), and how a command comes to be the next one run. -/

namespace Sys2Proof.Machine

/-- One step: one event of the host (R10). -/
def step : State → Host.Outcome State Fault Refusal := hostStep

/-- The state in which the host's next access is the CMD write of a table word. BMPHC fetches nothing (R21): a command is
the data of a CMD write, so this stands for the host issuing it (log 8). -/
def State.withFetchWord (s : State) (nbits w : Nat) : State := s.issue (cmdWrite (tableWord nbits w))

end Sys2Proof.Machine
end

