-- ==== Sys2Proof/Machine/Layout.lean ====
section
/-! DEFINITION. The pure functions of BMPHC's numbers by which the host moves bytes between a file and its buffers: the
header image of a file (rule R83) and the row layout (R126). No step uses them; they are what the host's transfer can be
checked against. -/

namespace Sys2Proof.Machine

/-- The colour components of a pixel (00 glossary, "channel"). -/
inductive Channel where
  | blue | green | red | alpha
  deriving DecidableEq, Repr

/-- The bytes of a pixel, lowest first: B, G, R and in 32-bit mode A (R78, R126). -/
def channelOrder (m32 : Bool) : List Channel :=
  if m32 then [.blue, .green, .red, .alpha] else [.blue, .green, .red]

/-- The bytes of HBUF that are a file's header: all 138 in 32-bit mode, the first 54 in 24-bit mode (R83). -/
def State.headerImage (s : State) : List Byte :=
  (List.range (if s.mode32 then Config.hbufSize else Config.fhWireSize + Config.ihWireSize)).map s.hbufByte

/-- Where row `y`'s pixel bytes start in the file, `B` the offset of the pixel data (R126). -/
def StrideRegs.rowStart (sc : StrideRegs) (B y : Nat) : Nat := B + y * sc.aligned.toNat

/-- Where row `y`'s pixel bytes end, and its SC_PAD padding bytes start (R126). -/
def StrideRegs.rowEnd (sc : StrideRegs) (B y : Nat) : Nat := sc.rowStart B y + sc.rowStride.toNat

/-- Where row `y` goes in the unpadded buffer (R126). -/
def StrideRegs.bufStart (sc : StrideRegs) (y : Nat) : Nat := y * sc.rowStride.toNat

/-- Row `y`'s pixel bytes as read from a file; the padding is left out (R126). -/
def StrideRegs.readRow (sc : StrideRegs) (file : List Byte) (B y : Nat) : List Byte :=
  (file.drop (sc.rowStart B y)).take sc.rowStride.toNat

/-- The unpadded buffer of an image of `h` rows read from a file, row 0 (the visually lowest) first (R126). -/
def StrideRegs.readPixels (sc : StrideRegs) (file : List Byte) (B h : Nat) : List Byte :=
  (List.range h).flatMap fun y => sc.readRow file B y

/-- Row `y` as a file writer emits it: its pixel bytes, then SC_PAD bytes of PAD_FILL (R126). -/
def StrideRegs.emitRow (sc : StrideRegs) (buf : List Byte) (y : Nat) : List Byte :=
  (buf.drop (sc.bufStart y)).take sc.rowStride.toNat ++ List.replicate sc.pad.toNat Config.padFill

/-- The pixel data of a file of `h` rows as a writer emits it (R126). -/
def StrideRegs.emitPixels (sc : StrideRegs) (buf : List Byte) (h : Nat) : List Byte :=
  (List.range h).flatMap fun y => sc.emitRow buf y

end Sys2Proof.Machine
end

