-- ==== Sys2Proof/Safety.lean ====
section
/-! DEFINITION. The words claims are stated in: which accesses are admitted (rules R50 to R54), what a legal STATUS and
consistent stride results are (R28, R151), the invariant of the machine, and runs. -/

namespace Sys2Proof.Machine

/-- The addresses of REGMAP as the table of R50 gives them. -/
abbrev inRegMap (a : Nat) : Prop :=
  a % 4 = 0 ∧
    ((0x100 ≤ a ∧ a ≤ 0x110) ∨ (0x120 ≤ a ∧ a ≤ 0x148) ∨ (0x160 ≤ a ∧ a ≤ 0x170) ∨ (0x180 ≤ a ∧ a ≤ 0x1BC) ∨
      (0x200 ≤ a ∧ a ≤ 0x218) ∨ a = 0x300 ∨ a = 0x304 ∨ a = 0x308)

/-- The read-only registers SC_*, SC_CONTIG and FLAGS (R54). -/
abbrev readOnly (a : Nat) : Prop := (0x200 ≤ a ∧ a ≤ 0x218) ∨ a = 0x308

/-- The accesses that do not raise a bus error (R50 to R54). -/
abbrev HostEvent.admitted : HostEvent → Prop
  | .read n a => a.toNat + n.bytes ≤ Config.hbufSize ∨ (n = .word ∧ inRegMap a.toNat)
  | .write n a _ => a.toNat + n.bytes ≤ Config.hbufSize ∨ (n = .word ∧ inRegMap a.toNat ∧ ¬ readOnly a.toNat)
  | .reset => True

/-- The pairs (CODE, DETAIL) that commands report: success, or a detail of R151 with its code. -/
def legalReports : List (ErrorCode × Detail) :=
  [(.ok, .none), (.unrecognizedFormat, .sig), (.unrecognizedFormat, .ihTooSmall), (.unsupportedFormat, .mask),
    (.unsupportedFormat, .csType), (.unsupportedOrientation, .negHeight), (.unsupportedFormat, .bpp),
    (.unsupportedFormat, .compression), (.invalidDimensions, .widthNonpos), (.invalidDimensions, .heightNonpos),
    (.arithRange, .negDim), (.arithRange, .range), (.illegalCommand, .undefOp), (.illegalCommand, .rsvBits)]

/-- STATUS holds a report of R151. -/
abbrev Status.legal (t : Status) : Prop := ∃ p ∈ legalReports, t.code = p.1.bits ∧ t.detail = p.2.bits

/-- The six results are those of one width, height and depth (R28, R120): W and H non-negative, C a depth div 8. -/
def StrideRegs.consistent (sc : StrideRegs) : Prop :=
  ∃ w h : Nat, w < 2 ^ 31 ∧ h < 2 ^ 31 ∧ sc.channels.toNat ≤ 8191 ∧
    sc.rowStride.toNat = w * sc.channels.toNat ∧
    sc.aligned.toNat % 4 = 0 ∧
    sc.aligned.toNat = sc.rowStride.toNat + sc.pad.toNat ∧
    sc.pad.toNat ≤ 3 ∧
    sc.bufSize.toNat = w * h * sc.channels.toNat ∧
    sc.diskSize.toNat = h * sc.aligned.toNat

/-- The invariant every step keeps: HBUF's bytes in canonical form, a legal STATUS, consistent stride results. -/
structure State.Inv (s : State) : Prop where
  hbuf : s.hbuf.wf
  status : s.status.legal
  sc : s.sc.consistent

/-! ### Bytes and numbers, written out -/

/-- The 16-bit little-endian number at an offset (R57). -/
def le16 (f : Nat → Byte) (k : Nat) : Half := f (k + 1) ++ f k

/-- The 32-bit little-endian number at an offset (R57). -/
def le32 (f : Nat → Byte) (k : Nat) : Word := f (k + 3) ++ f (k + 2) ++ f (k + 1) ++ f k

/-- The two bytes of a 16-bit value, least significant first (R57). -/
def bytesOf16 (v : Half) : List Byte := [v.extractLsb' 0 8, v.extractLsb' 8 8]

/-- The four bytes of a 32-bit value, least significant first (R57). -/
def bytesOf32 (v : Word) : List Byte := [v.extractLsb' 0 8, v.extractLsb' 8 8, v.extractLsb' 16 8, v.extractLsb' 24 8]

/-- `A` is "the smallest multiple of 4 ≥" `row` (R28, R120). -/
def LeastMultipleOf4 (row A : Nat) : Prop := 4 ∣ A ∧ row ≤ A ∧ ∀ B, 4 ∣ B → row ≤ B → A ≤ B

/-- The error of DOC's decoder on a file's header bytes, by its steps 2, 4 (with the Color Header Validator of DOC 4.2)
and 6, in that order; none where it reaches step 7 (R140, R142). -/
def docHeaderError (file : Nat → Byte) : Option ErrorCode :=
  if le16 file 0 ≠ 0x4D42 then some .unrecognizedFormat
  else if le16 file 28 = 32 ∧ (le32 file 14).toNat < 40 + 84 then some .unrecognizedFormat
  else if le16 file 28 = 32 ∧ ¬ (le32 file 54 = 0x00FF0000 ∧ le32 file 58 = 0x0000FF00 ∧ le32 file 62 = 0x000000FF ∧
      le32 file 66 = 0xFF000000 ∧ le32 file 70 = 0x73524742) then some .unsupportedFormat
  else if (le32 file 22).toInt < 0 then some .unsupportedOrientation
  else none

/-! ### Runs -/

/-- `s'` is what one step makes of `s`. -/
def Steps (s s' : State) : Prop := step s = .next s'

/-- The states a machine can come to from `s`. -/
inductive Reaches : State → State → Prop where
  | refl (s : State) : Reaches s s
  | tail {s t u : State} : Reaches s t → Steps t u → Reaches s u

/-- A safe run: no host access from `s` on ever ends in a bus error. -/
def State.busSafe (s : State) : Prop := ∀ t a, Reaches s t → step t ≠ .fault (.busError a)

end Sys2Proof.Machine
end

