-- ==== Sys2Proof/Certificates/Slice0/Obligations.lean ====
section
/-! DEFINITION. The statements about the model, for the provers. Names of registers, codes and details are those of
10_state.md and 60_exceptions.md. A record equality `t = { s with … }` is also the statement's frame: every field that is
not named is unchanged. -/

open Sys2Proof Sys2Proof.Machine

/-! ### Command words (30_encoding.md) -/

/-- R71, R73: a word decodes to a command exactly when it is that command's word, and there are twelve such words. -/
def Obligations.DecodeEncodeExactly : Prop :=
  (∀ (w : Word) (i : Instr), decode w = .ok i ↔ w = encode i) ∧
  (∀ w : Word, (∃ i, decode w = .ok i) ↔ w ∈ legalWords) ∧ legalWords.length = 12 ∧ legalWords.Nodup

/-- R72 whole: an undefined opcode first, then the reserved bits and the A bit, then the command's own rule. -/
def Obligations.ExecuteDecodesInOrder : Prop :=
  ∀ (w : Word) (s : State),
    (w.extractLsb' 0 8 ∉ ([0x00, 0x01, 0x02, 0x03, 0x11, 0x12, 0x13, 0x20, 0x21, 0x22, 0x30] : List Byte) →
      executeWord w s = .next { s with status := { code := 8, sticky := true, detail := 12 } }) ∧
    (w.extractLsb' 0 8 ∈ ([0x00, 0x01, 0x02, 0x03, 0x11, 0x12, 0x13, 0x20, 0x21, 0x22, 0x30] : List Byte) →
      (w.extractLsb' 9 23 ≠ 0 ∨ (w.getLsbD 8 = true ∧ w.extractLsb' 0 8 ≠ 0x22)) →
      executeWord w s = .next { s with status := { code := 8, sticky := true, detail := 13 } }) ∧
    (w.extractLsb' 0 8 ∈ ([0x00, 0x01, 0x02, 0x03, 0x11, 0x12, 0x13, 0x20, 0x21, 0x22, 0x30] : List Byte) →
      w.extractLsb' 9 23 = 0 → (w.getLsbD 8 = true → w.extractLsb' 0 8 = 0x22) →
      ∃ i, encode i = w ∧ (∀ a, i = .synth a → a = w.getLsbD 8) ∧ executeWord w s = exec i s)

/-- Words written out from the table of R71 decode to the commands they stand for. -/
def Obligations.TableWordsDecode : Prop :=
  decode 0x00000000 = .ok .nop ∧ decode 0x00000003 = .ok .deccm ∧ decode 0x00000011 = .ok .encfh ∧
  decode 0x00000021 = .ok .norm ∧ decode 0x00000022 = .ok (.synth false) ∧ decode 0x00000122 = .ok (.synth true) ∧
  decode 0x00000030 = .ok .validate ∧ decode 0x00000104 = .error .undefOp ∧ decode 0x00000121 = .error .rsvBits

/-- R32, R72: a step whose event is the CMD write of a word that decodes is that command at the state with the access
taken and acknowledged; `withFetchWord` places such a write. -/
def Obligations.StepRunsDecodedCommand : Prop :=
  (∀ (s : State) (w : Word) (i : Instr) (rest : List HostEvent),
    s.pending = .write .word 0x300 w :: rest → decode w = .ok i →
    step s = exec i { s with pending := rest, response := .ack }) ∧
  (∀ (s : State) (i : Instr),
    step (s.withFetchWord 32 (encode i).toNat) = exec i { s with response := .ack })

/-- R174, R179: every word written to CMD runs to completion on every state, and no command touches what the host is
about to do, the answer on the bus, or the count of resets (the model's own fields, logs 1, 2, 5). -/
def Obligations.EveryCommandWordCompletes : Prop :=
  ∀ (w : Word) (s : State), ∃ t, executeWord w s = .next t ∧ t.pending = s.pending ∧ t.response = s.response ∧
    t.resets = s.resets

/-! ### The header codec (40_codec.md) -/

/-- R103 whole: DECFH loads the five FH registers from HBUF[0..13], always succeeds, and changes nothing else. -/
def Obligations.DecfhLoadsFileHeader : Prop :=
  encode .decfh = 0x00000001 ∧
  (∀ s : State, exec .decfh s = .next { s with
    fh := {
      type := s.hbufByte 1 ++ s.hbufByte 0
      size := s.hbufByte 5 ++ s.hbufByte 4 ++ s.hbufByte 3 ++ s.hbufByte 2
      res1 := s.hbufByte 7 ++ s.hbufByte 6
      res2 := s.hbufByte 9 ++ s.hbufByte 8
      offBits := s.hbufByte 13 ++ s.hbufByte 12 ++ s.hbufByte 11 ++ s.hbufByte 10 }
    status := { s.status with code := 0, detail := 0 } }) ∧
  (∀ s t : State, exec .decfh s = .next t →
    t.flagsWord.getLsbD 0 = decide (s.hbufByte 0 = 0x42 ∧ s.hbufByte 1 = 0x4D)) ∧
  (∀ s : State,
    s.hbufBytes 0 14 = [0x42, 0x4D, 0x46, 0x00, 0x00, 0x00, 0x00, 0x00, 0x00, 0x00, 0x36, 0x00, 0x00, 0x00] →
    exec .decfh s = .next { s with
      fh := { type := 0x4D42, size := 70, res1 := 0, res2 := 0, offBits := 54 }
      status := { s.status with code := 0, detail := 0 } })

/-- R104 whole: DECIH loads the eleven IH registers from HBUF[14..53], always succeeds, and changes nothing else. -/
def Obligations.DecihLoadsInfoHeader : Prop :=
  encode .decih = 0x00000002 ∧
  (∀ s : State, exec .decih s = .next { s with
    ih := {
      size := le32 s.hbufByte 14
      width := le32 s.hbufByte 18
      height := le32 s.hbufByte 22
      planes := le16 s.hbufByte 26
      bitCount := le16 s.hbufByte 28
      compression := le32 s.hbufByte 30
      sizeImage := le32 s.hbufByte 34
      xppm := le32 s.hbufByte 38
      yppm := le32 s.hbufByte 42
      clrUsed := le32 s.hbufByte 46
      clrImportant := le32 s.hbufByte 50 }
    status := { s.status with code := 0, detail := 0 } }) ∧
  (∀ s t : State, exec .decih s = .next t →
    t.flagsWord.getLsbD 1 = decide (le16 s.hbufByte 28 ≠ 32 ∨ 124 ≤ (le32 s.hbufByte 14).toNat) ∧
    t.flagsWord.getLsbD 4 = decide (0 ≤ (le32 s.hbufByte 22).toInt) ∧
    t.flagsWord.getLsbD 5 = decide (le16 s.hbufByte 28 = 24 ∨ le16 s.hbufByte 28 = 32) ∧
    t.flagsWord.getLsbD 6 = decide (le32 s.hbufByte 30 = 0 ∨ (le32 s.hbufByte 30 = 3 ∧ le16 s.hbufByte 28 = 32)) ∧
    t.flagsWord.getLsbD 7 = decide (le16 s.hbufByte 28 = 32)) ∧
  (∀ s t : State, s.hbufBytes 22 4 = [0xFE, 0xFF, 0xFF, 0xFF] → exec .decih s = .next t →
    t.ih.height = 0xFFFFFFFE ∧ t.ih.height.toInt = -2) ∧
  (∀ s : State,
    s.hbufBytes 14 16 = [0x28, 0, 0, 0, 3, 0, 0, 0, 2, 0, 0, 0, 1, 0, 0x18, 0] →
    s.hbufBytes 30 24 = List.replicate 24 0 →
    exec .decih s = .next { s with
      ih := { InfoRegs.reset with size := 40, width := 3, height := 2, planes := 1, bitCount := 24 }
      status := { s.status with code := 0, detail := 0 } })

/-- R105 whole: DECCM loads the 21 CM registers from HBUF[54..137] in either mode, always succeeds, and changes nothing
else. -/
def Obligations.DeccmLoadsColorMaskHeader : Prop :=
  encode .deccm = 0x00000003 ∧
  (∀ s : State, exec .deccm s = .next { s with
    cm := {
      red := le32 s.hbufByte 54
      green := le32 s.hbufByte 58
      blue := le32 s.hbufByte 62
      alpha := le32 s.hbufByte 66
      csType := le32 s.hbufByte 70
      unused := Vector.ofFn fun i : Fin 16 => le32 s.hbufByte (74 + 4 * i.val) }
    status := { s.status with code := 0, detail := 0 } }) ∧
  (∀ s t : State, exec .deccm s = .next t →
    t.flagsWord.getLsbD 2 = decide (le32 s.hbufByte 54 = 0x00FF0000 ∧ le32 s.hbufByte 58 = 0x0000FF00 ∧
      le32 s.hbufByte 62 = 0x000000FF ∧ le32 s.hbufByte 66 = 0xFF000000) ∧
    t.flagsWord.getLsbD 3 = decide (le32 s.hbufByte 70 = 0x73524742)) ∧
  (∀ s t : State,
    s.hbufBytes 54 20 = [0, 0, 0xFF, 0, 0, 0xFF, 0, 0, 0xFF, 0, 0, 0, 0, 0, 0, 0xFF, 0x42, 0x47, 0x52, 0x73] →
    exec .deccm s = .next t →
    t.cm.red = 0x00FF0000 ∧ t.cm.green = 0x0000FF00 ∧ t.cm.blue = 0x000000FF ∧ t.cm.alpha = 0xFF000000 ∧
      t.cm.csType = 0x73524742 ∧ t.flagsWord.getLsbD 2 = true ∧ t.flagsWord.getLsbD 3 = true)

/-- R106 whole: ENCFH writes the five FH registers as they stand to HBUF[0..13], always succeeds, and changes nothing
else. -/
def Obligations.EncfhStoresFileHeader : Prop :=
  encode .encfh = 0x00000011 ∧
  (∀ s : State, ∃ t, exec .encfh s = .next t ∧
    t = { s with hbuf := t.hbuf, status := { s.status with code := 0, detail := 0 } } ∧
    t.hbufBytes 0 14 = bytesOf16 s.fh.type ++ bytesOf32 s.fh.size ++ bytesOf16 s.fh.res1 ++ bytesOf16 s.fh.res2 ++
      bytesOf32 s.fh.offBits ∧
    ∀ k, 14 ≤ k → t.hbufByte k = s.hbufByte k) ∧
  (∀ s t : State, s.fh = { type := 0x4D42, size := 142, res1 := 0, res2 := 0, offBits := 138 } →
    exec .encfh s = .next t →
    t.hbufBytes 0 14 = [0x42, 0x4D, 0x8E, 0, 0, 0, 0, 0, 0, 0, 0x8A, 0, 0, 0])

/-- R107 whole: ENCIH writes the eleven IH registers to HBUF[14..53], always succeeds, and changes nothing else. -/
def Obligations.EncihStoresInfoHeader : Prop :=
  encode .encih = 0x00000012 ∧
  (∀ s : State, ∃ t, exec .encih s = .next t ∧
    t = { s with hbuf := t.hbuf, status := { s.status with code := 0, detail := 0 } } ∧
    t.hbufBytes 14 40 = bytesOf32 s.ih.size ++ bytesOf32 s.ih.width ++ bytesOf32 s.ih.height ++
      bytesOf16 s.ih.planes ++ bytesOf16 s.ih.bitCount ++ bytesOf32 s.ih.compression ++ bytesOf32 s.ih.sizeImage ++
      bytesOf32 s.ih.xppm ++ bytesOf32 s.ih.yppm ++ bytesOf32 s.ih.clrUsed ++ bytesOf32 s.ih.clrImportant ∧
    ∀ k, k < 14 ∨ 54 ≤ k → t.hbufByte k = s.hbufByte k) ∧
  (∀ s t : State, s.ih.height = 0xFFFFFFFF → exec .encih s = .next t → t.hbufBytes 22 4 = [0xFF, 0xFF, 0xFF, 0xFF]) ∧
  (∀ s t : State,
    s.ih = { InfoRegs.reset with
      size := 124, width := 1, height := 1, planes := 1, bitCount := 32, compression := 3 } →
    exec .encih s = .next t →
    t.hbufBytes 14 20 = [0x7C, 0, 0, 0, 1, 0, 0, 0, 1, 0, 0, 0, 1, 0, 0x20, 0, 3, 0, 0, 0] ∧
    t.hbufBytes 34 20 = List.replicate 20 0)

/-- R108 whole: ENCCM writes the 21 CM registers to HBUF[54..137] in either mode, always succeeds, and changes nothing
else. -/
def Obligations.EnccmStoresColorMaskHeader : Prop :=
  encode .enccm = 0x00000013 ∧
  (∀ s : State, ∃ t, exec .enccm s = .next t ∧
    t = { s with hbuf := t.hbuf, status := { s.status with code := 0, detail := 0 } } ∧
    t.hbufBytes 54 20 = bytesOf32 s.cm.red ++ bytesOf32 s.cm.green ++ bytesOf32 s.cm.blue ++ bytesOf32 s.cm.alpha ++
      bytesOf32 s.cm.csType ∧
    (∀ i : Fin 16, t.hbufBytes (74 + 4 * i.val) 4 = bytesOf32 s.cm.unused[i]) ∧
    ∀ k, k < 54 ∨ 138 ≤ k → t.hbufByte k = s.hbufByte k) ∧
  (∀ s t : State, s.cm = canonicalMasks → exec .enccm s = .next t →
    t.hbufBytes 54 20 = [0, 0, 0xFF, 0, 0, 0xFF, 0, 0, 0xFF, 0, 0, 0, 0, 0, 0, 0xFF, 0x42, 0x47, 0x52, 0x73] ∧
    t.hbufBytes 74 64 = List.replicate 64 0)

/-- R109, an inference of the spec's own: decoding then encoding a header leaves every byte of HBUF, encoding then
decoding leaves every field register, and neither touches the bytes or registers of another header. -/
def Obligations.CodecRoundTrip : Prop :=
  ∀ p ∈ [(Instr.decfh, Instr.encfh, 0, 14), (.decih, .encih, 14, 54), (.deccm, .enccm, 54, 138)], ∀ s : State,
    (∃ t u, exec p.1 s = .next t ∧ exec p.2.1 t = .next u ∧ (∀ k, u.hbufByte k = s.hbufByte k) ∧
      (p.1 ≠ .decfh → u.fh = s.fh) ∧ (p.1 ≠ .decih → u.ih = s.ih) ∧ (p.1 ≠ .deccm → u.cm = s.cm)) ∧
    (∃ t u, exec p.2.1 s = .next t ∧ exec p.1 t = .next u ∧ u.fh = s.fh ∧ u.ih = s.ih ∧ u.cm = s.cm ∧
      ∀ k, k < p.2.2.1 ∨ p.2.2.2 ≤ k → u.hbufByte k = s.hbufByte k)

/-! ### The stride calculator and the derived fields (41_stride.md) -/

/-- R120 and R121 whole: STRIDE's two errors and its six results, for every width, height and depth. -/
def Obligations.StrideComputesRowLayout : Prop :=
  encode .stride = 0x00000020 ∧
  (∀ s : State, s.ih.width.toInt < 0 ∨ s.ih.height.toInt < 0 →
    exec .stride s = .next { s with status := { code := 7, sticky := true, detail := 10 } }) ∧
  (∀ (s : State) (W H A : Nat), s.ih.width.toInt = W → s.ih.height.toInt = H →
    LeastMultipleOf4 (W * (s.ih.bitCount.toNat / 8)) A →
    (A > 0xFFFFFFFF ∨ H * A > 0xFFFFFFFF →
      exec .stride s = .next { s with status := { code := 7, sticky := true, detail := 11 } }) ∧
    (A ≤ 0xFFFFFFFF → H * A ≤ 0xFFFFFFFF →
      ∃ t, exec .stride s = .next t ∧
        t = { s with sc := t.sc, status := { s.status with code := 0, detail := 0 } } ∧
        t.sc.channels.toNat = s.ih.bitCount.toNat / 8 ∧
        t.sc.rowStride.toNat = W * (s.ih.bitCount.toNat / 8) ∧
        t.sc.aligned.toNat = A ∧
        t.sc.pad.toNat = A - W * (s.ih.bitCount.toNat / 8) ∧
        t.sc.bufSize.toNat = W * H * (s.ih.bitCount.toNat / 8) ∧
        t.sc.diskSize.toNat = H * A ∧
        t.contigWord = if t.sc.pad = 0 then 1 else 0)) ∧
  (∀ s t : State, s.ih.width = 5 → s.ih.height = 2 → s.ih.bitCount = 24 → exec .stride s = .next t →
    t.sc = { channels := 3, rowStride := 15, aligned := 16, pad := 1, bufSize := 30, diskSize := 32 } ∧
    t.contigWord = 0)

/-- R122: NORM's errors, and IH_SIZE, FH_OFFBITS, FH_SIZE and the six results otherwise. That FLAGS.SIZE_OK reads 1
afterwards is the spec's own inference ("[derived: IH_SIZE = 124 whenever IH_BITCOUNT = 32]"). -/
def Obligations.NormRecomputesDerivedFields : Prop :=
  encode .norm = 0x00000021 ∧
  (∀ s : State, s.ih.width.toInt < 0 ∨ s.ih.height.toInt < 0 →
    exec .norm s = .next { s with status := { code := 7, sticky := true, detail := 10 } }) ∧
  (∀ (s : State) (W H A off size : Nat), s.ih.width.toInt = W → s.ih.height.toInt = H →
    LeastMultipleOf4 (W * (s.ih.bitCount.toNat / 8)) A →
    (s.ih.bitCount = 32 → off = 138 ∧ size = 124) → (s.ih.bitCount ≠ 32 → off = 54 ∧ size = 40) →
    (A > 0xFFFFFFFF ∨ H * A > 0xFFFFFFFF ∨ off + H * A > 0xFFFFFFFF →
      exec .norm s = .next { s with status := { code := 7, sticky := true, detail := 11 } }) ∧
    (A ≤ 0xFFFFFFFF → off + H * A ≤ 0xFFFFFFFF →
      ∃ t, exec .norm s = .next t ∧
        t = { s with
          ih := { s.ih with size := t.ih.size }
          fh := { s.fh with offBits := t.fh.offBits, size := t.fh.size }
          sc := t.sc
          status := { s.status with code := 0, detail := 0 } } ∧
        t.ih.size.toNat = size ∧ t.fh.offBits.toNat = off ∧ t.fh.size.toNat = off + H * A ∧
        t.sc.channels.toNat = s.ih.bitCount.toNat / 8 ∧
        t.sc.rowStride.toNat = W * (s.ih.bitCount.toNat / 8) ∧
        t.sc.aligned.toNat = A ∧
        t.sc.pad.toNat = A - W * (s.ih.bitCount.toNat / 8) ∧
        t.sc.bufSize.toNat = W * H * (s.ih.bitCount.toNat / 8) ∧
        t.sc.diskSize.toNat = H * A ∧
        t.flagsWord.getLsbD 1 = true))

/-- R123: SYNTH's errors in their order, and every register it writes otherwise. What FLAGS reads afterwards is the
spec's own inference ("Afterwards FLAGS reads 0xFF if A = 1, and 0x7F if A = 0"). -/
def Obligations.SynthWritesBlankHeaders : Prop :=
  encode (.synth false) = 0x00000022 ∧ encode (.synth true) = 0x00000122 ∧
  ∀ (a : Bool) (s : State),
    (s.ih.width.toInt ≤ 0 →
      exec (.synth a) s = .next { s with status := { code := 5, sticky := true, detail := 8 } }) ∧
    (0 < s.ih.width.toInt → s.ih.height.toInt ≤ 0 →
      exec (.synth a) s = .next { s with status := { code := 5, sticky := true, detail := 9 } }) ∧
    (∀ (W H A C off : Nat), s.ih.width.toInt = W → s.ih.height.toInt = H → 0 < W → 0 < H →
      C = (if a then 4 else 3) → off = (if a then 138 else 54) → LeastMultipleOf4 (W * C) A →
      (A > 0xFFFFFFFF ∨ H * A > 0xFFFFFFFF ∨ off + H * A > 0xFFFFFFFF →
        exec (.synth a) s = .next { s with status := { code := 7, sticky := true, detail := 11 } }) ∧
      (A ≤ 0xFFFFFFFF → off + H * A ≤ 0xFFFFFFFF →
        ∃ t, exec (.synth a) s = .next t ∧
          t = { s with
            fh := { type := 0x4D42, size := t.fh.size, res1 := 0, res2 := 0, offBits := if a then 138 else 54 }
            ih := {
              size := if a then 124 else 40
              width := s.ih.width
              height := s.ih.height
              planes := 1
              bitCount := if a then 32 else 24
              compression := if a then 3 else 0
              sizeImage := 0
              xppm := 0
              yppm := 0
              clrUsed := 0
              clrImportant := 0 }
            cm := {
              red := 0x00FF0000
              green := 0x0000FF00
              blue := 0x000000FF
              alpha := 0xFF000000
              csType := 0x73524742
              unused := Vector.replicate 16 0 }
            sc := t.sc
            status := { s.status with code := 0, detail := 0 } } ∧
          t.fh.size.toNat = off + H * A ∧
          t.sc.channels.toNat = C ∧ t.sc.rowStride.toNat = W * C ∧ t.sc.aligned.toNat = A ∧
          t.sc.pad.toNat = A - W * C ∧ t.sc.bufSize.toNat = W * H * C ∧ t.sc.diskSize.toNat = H * A ∧
          t.flagsWord = if a then 0xFF else 0x7F))

/-- R124, an inference of the spec's own: the padding after a STRIDE, NORM or SYNTH that completes. -/
def Obligations.PaddingLaws : Prop :=
  ∀ (i : Instr) (s t : State), (i = .stride ∨ i = .norm ∨ ∃ a, i = .synth a) → exec i s = .next t →
    t.status.code = 0 →
    (t.ih.bitCount = 32 → t.sc.pad = 0) ∧
    (t.ih.bitCount = 24 → (t.sc.pad = 0 ↔ t.ih.width.toInt % 4 = 0)) ∧
    t.sc.pad.toNat = (4 - t.sc.rowStride.toNat % 4) % 4

/-- R125, an inference of the spec's own: bfSize after a NORM or SYNTH that completes. -/
def Obligations.FileSizeLaw : Prop :=
  ∀ (i : Instr) (s t : State), (i = .norm ∨ ∃ a, i = .synth a) → exec i s = .next t → t.status.code = 0 →
    (t.fh.size.toNat : Int) = t.fh.offBits.toNat + t.sc.bufSize.toNat + t.ih.height.toInt * t.sc.pad.toNat ∧
    t.fh.size.toNat = t.fh.offBits.toNat + t.sc.diskSize.toNat ∧
    (t.sc.bufSize.toNat : Int) = t.ih.width.toInt * t.ih.height.toInt * t.sc.channels.toNat

/-- R126: the rows of a file that a writer emits from an unpadded buffer are read back as that buffer, and each row's
padding ends where the next row starts. -/
def Obligations.RowLayoutRoundTrip : Prop :=
  ∀ (sc : StrideRegs) (header buf : List Byte) (h : Nat), sc.consistent → buf.length = h * sc.rowStride.toNat →
    sc.readPixels (header ++ sc.emitPixels buf h) header.length h = buf ∧
    (∀ y, sc.rowEnd header.length y + sc.pad.toNat = sc.rowStart header.length (y + 1)) ∧
    (header ++ sc.emitPixels buf h).length = sc.rowStart header.length h

/-- R83, R125, R126: after a NORM or SYNTH that completes, a file made of the header image and the emitted rows of a
buffer of SC_BUFSIZE bytes is FH_SIZE bytes long, and its pixel data starts at FH_OFFBITS. -/
def Obligations.EmittedFileHasFileSize : Prop :=
  ∀ (i : Instr) (s t : State) (buf : List Byte), (i = .norm ∨ ∃ a, i = .synth a) → exec i s = .next t →
    t.status.code = 0 → buf.length = t.sc.bufSize.toNat →
    t.headerImage.length = t.fh.offBits.toNat ∧
    (t.headerImage ++ t.sc.emitPixels buf t.ih.height.toInt.toNat).length = t.fh.size.toNat

/-! ### VALIDATE and NOP (42_validate.md) -/

/-- R140 whole: VALIDATE's verdict is the first failing check in its order, and it writes STATUS only. -/
def Obligations.ValidateReportsFirstFailure : Prop :=
  encode .validate = 0x00000030 ∧
  (∀ s : State, exec .validate s = .next { s with status :=
    if s.fh.type ≠ 0x4D42 then { code := 2, sticky := true, detail := 1 }
    else if s.ih.bitCount = 32 ∧ s.ih.size.toNat < 124 then { code := 2, sticky := true, detail := 2 }
    else if s.ih.bitCount = 32 ∧ ¬ (s.cm.red = 0x00FF0000 ∧ s.cm.green = 0x0000FF00 ∧ s.cm.blue = 0x000000FF ∧
        s.cm.alpha = 0xFF000000) then { code := 4, sticky := true, detail := 3 }
    else if s.ih.bitCount = 32 ∧ s.cm.csType ≠ 0x73524742 then { code := 4, sticky := true, detail := 4 }
    else if s.ih.height.toInt < 0 then { code := 3, sticky := true, detail := 5 }
    else if s.ih.bitCount ≠ 24 ∧ s.ih.bitCount ≠ 32 then { code := 4, sticky := true, detail := 6 }
    else if ¬ (s.ih.compression = 0 ∨ (s.ih.compression = 3 ∧ s.ih.bitCount = 32)) then
      { code := 4, sticky := true, detail := 7 }
    else { code := 0, sticky := s.status.sticky, detail := 0 } }) ∧
  (∀ s t : State, exec (.synth true) s = .next t → t.status.code = 0 →
    (∃ u, exec .validate t = .next u ∧ u.status.code = 0) ∧
    (∃ u, exec .validate { t with cm := { t.cm with alpha := 0 } } = .next u ∧ u.status.code = 4 ∧
      u.status.detail = 3))

/-- R141 whole: NOP clears CODE and DETAIL and changes nothing else; a NOP opcode with another bit set is illegal. -/
def Obligations.NopClearsReport : Prop :=
  encode .nop = 0x00000000 ∧
  (∀ s : State, exec .nop s = .next { s with status := { code := 0, sticky := s.status.sticky, detail := 0 } }) ∧
  (∀ (w : Word) (s : State), w.extractLsb' 0 8 = 0x00 → w ≠ 0 →
    executeWord w s = .next { s with status := { code := 8, sticky := true, detail := 13 } }) ∧
  (∀ s t : State, s.status.word = 0x00000314 → exec .nop s = .next t → t.status.word = 0x00000010)

/-- R142, an inference of the spec's own: after `dechdr`, VALIDATE accepts exactly the headers that DOC's decoder takes to
its step 7 and that also satisfy BPP_OK and COMP_OK, and where DOC's decoder fails it reports DOC's error. -/
def Obligations.ValidateAgreesWithDocDecoder : Prop :=
  ∀ s : State, ∃ t u v x, exec .decfh s = .next t ∧ exec .decih t = .next u ∧ exec .deccm u = .next v ∧
    exec .validate v = .next x ∧
    (x.status.code = 0 ↔ docHeaderError s.hbufByte = none ∧ v.flagsWord.getLsbD 5 = true ∧
      v.flagsWord.getLsbD 6 = true) ∧
    (∀ e, docHeaderError s.hbufByte = some e → x.status.code = e.bits)

/-! ### Registers and flags (10_state.md) -/

/-- R26: a field register keeps the bits of its width and reads zero-extended, whether the host writes it at its address
or a command does; no other field register changes, and STATUS, the six SC registers, HBUF and the model's own fields stay
whole. -/
def Obligations.FieldRegisterTruncates : Prop :=
  ∀ (r : FieldReg) (v : Word) (s : State),
    let kept := if r ∈ [FieldReg.fhType, .fhRes1, .fhRes2, .ihPlanes, .ihBitCount] then v &&& 0xFFFF else v
    (s.writeField r v).readField r = kept ∧
    (∀ r', r' ≠ r → (s.writeField r v).readField r' = s.readField r') ∧
    s.writeField r v = { s with
      fh := (s.writeField r v).fh, ih := (s.writeField r v).ih, cm := (s.writeField r v).cm } ∧
    (s.writeField r v).status = s.status ∧ (s.writeField r v).sc = s.sc ∧ (s.writeField r v).hbuf = s.hbuf ∧
    step (s.issue (.write .word (BitVec.ofNat 12 r.addr) v)) = .next ((s.writeField r v).respond .ack) ∧
    (∃ t, step ((s.writeField r v).issue (.read .word (BitVec.ofNat 12 r.addr))) = .next t ∧
      t = { s.writeField r v with response := .data kept })

/-- R24, R25, R27, R50: the 47 registers, each at the address of the table of R50, none sharing an address. -/
def Obligations.RegisterMapIsTheTable : Prop :=
  regMap.length = 47 ∧ (∀ r s : RegName, r.addr = s.addr → r = s) ∧
  (∀ a : Nat, (∃ r, regAt a = some r) ↔ inRegMap a) ∧
  [FieldReg.fhType, .fhSize, .fhRes1, .fhRes2, .fhOffBits].map FieldReg.addr = [0x100, 0x104, 0x108, 0x10C, 0x110] ∧
  [FieldReg.ihSize, .ihWidth, .ihHeight, .ihPlanes, .ihBitCount, .ihCompression, .ihSizeImage, .ihXppm, .ihYppm,
    .ihClrUsed, .ihClrImportant].map FieldReg.addr =
    [0x120, 0x124, 0x128, 0x12C, 0x130, 0x134, 0x138, 0x13C, 0x140, 0x144, 0x148] ∧
  [FieldReg.cmRed, .cmGreen, .cmBlue, .cmAlpha, .cmCsType].map FieldReg.addr = [0x160, 0x164, 0x168, 0x16C, 0x170] ∧
  (∀ i : Fin 16, (FieldReg.cmUnused i).addr = 0x180 + 4 * i.val)

/-- R29 whole: SC_CONTIG is 1 exactly when SC_PAD is 0, reads 0 above bit 0, and cannot be written. -/
def Obligations.ContigFollowsPad : Prop :=
  ∀ s : State,
    (∃ t v, step (s.issue (.read .word 0x218)) = .next t ∧ t = { s with response := .data v } ∧
      v.getLsbD 0 = decide (s.sc.pad = 0) ∧ v.extractLsb' 1 31 = 0) ∧
    (∀ n v, step (s.issue (.write n 0x218 v)) = .fault (.busError 0x218))

/-- R28: a read of an SC address gives the stored result and changes nothing; a write is a bus error. -/
def Obligations.ResultRegistersReadOnly : Prop :=
  ∀ (s : State) (v : Word),
    step (s.issue (.read .word 0x200)) = .next { s with response := .data s.sc.channels } ∧
    step (s.issue (.read .word 0x204)) = .next { s with response := .data s.sc.rowStride } ∧
    step (s.issue (.read .word 0x208)) = .next { s with response := .data s.sc.aligned } ∧
    step (s.issue (.read .word 0x20C)) = .next { s with response := .data s.sc.pad } ∧
    step (s.issue (.read .word 0x210)) = .next { s with response := .data s.sc.bufSize } ∧
    step (s.issue (.read .word 0x214)) = .next { s with response := .data s.sc.diskSize } ∧
    (∀ a : Addr, 0x200 ≤ a.toNat → a.toNat ≤ 0x218 → step (s.issue (.write .word a v)) = .fault (.busError a))

/-- R30 whole: how STATUS reads, what a write of it does, and what every command does to it. -/
def Obligations.StatusReadsAndClears : Prop :=
  (∀ s : State,
    ∃ v, step (s.issue (.read .word 0x304)) = .next { s with response := .data v } ∧
      v.extractLsb' 0 4 = s.status.code ∧ v.getLsbD 4 = s.status.sticky ∧ v.extractLsb' 5 3 = 0 ∧
      v.extractLsb' 8 4 = s.status.detail ∧ v.extractLsb' 12 20 = 0) ∧
  (∀ (s : State) (v : Word), step (s.issue (.write .word 0x304 v)) = .next { s with
    response := .ack
    status := { s.status with sticky := s.status.sticky && !v.getLsbD 4 } }) ∧
  (∀ (w : Word) (s t : State), executeWord w s = .next t →
    (t.status.code ≠ 0 → t.status.sticky = true ∧ t.status.detail ≠ 0) ∧
    (t.status.code = 0 → t.status.sticky = s.status.sticky ∧ t.status.detail = 0)) ∧
  State.reset.status = { code := 0, sticky := false, detail := 0 }

/-- R31 whole: FLAGS reads the eight checks of the field registers as they stand, 0 above bit 7, and cannot be
written. -/
def Obligations.FlagsReadCurrentChecks : Prop :=
  ∀ s : State,
    (∃ v, step (s.issue (.read .word 0x308)) = .next { s with response := .data v } ∧
      v.getLsbD 0 = decide (s.fh.type = 0x4D42) ∧
      v.getLsbD 1 = decide (s.ih.bitCount ≠ 32 ∨ 124 ≤ s.ih.size.toNat) ∧
      v.getLsbD 2 = decide (s.cm.red = 0x00FF0000 ∧ s.cm.green = 0x0000FF00 ∧ s.cm.blue = 0x000000FF ∧
        s.cm.alpha = 0xFF000000) ∧
      v.getLsbD 3 = decide (s.cm.csType = 0x73524742) ∧
      v.getLsbD 4 = decide (0 ≤ s.ih.height.toInt) ∧
      v.getLsbD 5 = decide (s.ih.bitCount = 24 ∨ s.ih.bitCount = 32) ∧
      v.getLsbD 6 = decide (s.ih.compression = 0 ∨ (s.ih.compression = 3 ∧ s.ih.bitCount = 32)) ∧
      v.getLsbD 7 = decide (s.ih.bitCount = 32) ∧
      v.extractLsb' 8 24 = 0) ∧
    (∀ n v, step (s.issue (.write n 0x308 v)) = .fault (.busError 0x308))

/-- R8: sext_32 and enc_32 are inverse on the 32-bit range. -/
def Obligations.SignedPatternsRoundTrip : Prop :=
  (∀ v : Word, enc32 (sext32 v) = v ∧ -2 ^ 31 ≤ sext32 v ∧ sext32 v < 2 ^ 31) ∧
  (∀ n : Int, -2 ^ 31 ≤ n → n < 2 ^ 31 → sext32 (enc32 n) = n ∧ ((enc32 n).toNat : Int) = n % 2 ^ 32)

/-- R34, R170: what the reset input leaves, on any state, and the state the machine starts in. That FLAGS then reads
0x52 and SC_CONTIG 1 is the spec's own inference; HBUF's bytes are said nothing of, but that none is listed as written
(log 5). What the host does next is not BMPHC's state, and stays (log 6). -/
def Obligations.ResetLeavesZeros : Prop :=
  (∀ s : State, ∃ t, step (s.issue .reset) = .next t ∧
    (∀ r, t.readField r = 0) ∧ (∀ r, t.sc.read r = 0) ∧ t.status.word = 0 ∧ t.flagsWord = 0x52 ∧ t.contigWord = 1 ∧
    t.hbuf = [] ∧ t.pending = s.pending) ∧
  (∀ r, State.reset.readField r = 0) ∧ (∀ r, State.reset.sc.read r = 0) ∧ State.reset.status.word = 0 ∧
  State.reset.flagsWord = 0x52 ∧ State.reset.contigWord = 1 ∧ State.reset.hbuf = []

/-! ### The host's accesses (20_memory.md) -/

/-- R51, R54: a step on an access is a bus error, of that access's address, exactly where the access is not admitted, and
is a next state everywhere else; reads and writes alike; and no two addresses reach the same byte of HBUF or register.
That the bus error of a write is a fault of the step (log 3), and that reset is an event that answers a next state
(log 6), are the model's inferences. -/
def Obligations.BusErrorsExactly : Prop :=
  (∀ (s : State) (e : HostEvent),
    (e.admitted → ∃ t, step (s.issue e) = .next t) ∧
    (¬ e.admitted → ∃ a, step (s.issue e) = .fault (.busError a) ∧
      ((∃ n, e = .read n a) ∨ ∃ n v, e = .write n a v))) ∧
  (∀ (n m : AccessSize) (a b : Addr), target n a ≠ .nothing → target n a = target m b → a = b)

/-- R52: an HBUF access of 1, 2 or 4 bytes at any address wholly inside 0x000..0x089, and one that runs past it. -/
def Obligations.HbufAccesses : Prop :=
  (∀ (s : State) (a : Addr), a.toNat + 1 ≤ 138 →
    step (s.issue (.read .byte a)) =
      .next { s with response := .data ((s.hbufByte a.toNat).setWidth 32) }) ∧
  (∀ (s : State) (a : Addr), a.toNat + 2 ≤ 138 →
    step (s.issue (.read .half a)) =
      .next { s with response := .data ((le16 s.hbufByte a.toNat).setWidth 32) }) ∧
  (∀ (s : State) (a : Addr), a.toNat + 4 ≤ 138 →
    step (s.issue (.read .word a)) = .next { s with response := .data (le32 s.hbufByte a.toNat) }) ∧
  (∀ (s : State) (n : AccessSize) (a : Addr) (v : Word), a.toNat + n.bytes ≤ 138 →
    ∃ t, step (s.issue (.write n a v)) = .next t ∧ t = { s with hbuf := t.hbuf, response := .ack } ∧
      (∀ i, i < n.bytes → t.hbufByte (a.toNat + i) = v.extractLsb' (8 * i) 8) ∧
      (∀ k, k < a.toNat ∨ a.toNat + n.bytes ≤ k → t.hbufByte k = s.hbufByte k)) ∧
  (∀ (s : State) (n : AccessSize) (a : Addr) (v : Word), a.toNat ≤ 0x089 → 138 < a.toNat + n.bytes →
    step (s.issue (.read n a)) = .fault (.busError a) ∧ step (s.issue (.write n a v)) = .fault (.busError a))

/-- R54 whole: writes of the read-only registers, of STATUS and of CMD, and the read of CMD. -/
def Obligations.SpecialRegisterAccesses : Prop :=
  ∀ (s : State) (v : Word),
    (∀ a ∈ ([0x200, 0x204, 0x208, 0x20C, 0x210, 0x214, 0x218, 0x308] : List Addr),
      step (s.issue (.write .word a v)) = .fault (.busError a)) ∧
    step (s.issue (.write .word 0x304 v)) = .next { s with
      response := .ack
      status := { s.status with sticky := if v.getLsbD 4 then false else s.status.sticky } } ∧
    step (s.issue (.write .word 0x300 v)) = executeWord v { s with response := .ack } ∧
    step (s.issue (.read .word 0x300)) = .next { s with response := .data 0 }

/-- R57, R60: a read of HBUF after a write of it sees the written bytes and the old ones, whatever the two widths. -/
def Obligations.MixedWidthReadAfterWrite : Prop :=
  ∀ (s : State) (n m : AccessSize) (a b : Addr) (v : Word), a.toNat + n.bytes ≤ 138 → b.toNat + m.bytes ≤ 138 →
    ∃ t u x, step (s.issue (.write n a v)) = .next t ∧ step (t.issue (.read m b)) = .next u ∧
      u = { t with response := .data x } ∧ x.toNat < 256 ^ m.bytes ∧
      ∀ j, j < m.bytes → x.extractLsb' (8 * j) 8 =
        if a.toNat ≤ b.toNat + j ∧ b.toNat + j < a.toNat + n.bytes then v.extractLsb' (8 * (b.toNat + j - a.toNat)) 8
        else s.hbufByte (b.toNat + j)

/-- R55, an inference of the spec's own: a read changes nothing (but the answer on the bus), and doing an access twice in
a row leaves the state of doing it once; a CMD write included. The premise is the canonical form that `StepKeepsInvariant`
keeps. -/
def Obligations.AccessesAreIdempotent : Prop :=
  ∀ (s t : State) (e : HostEvent), s.hbuf.wf → e ≠ .reset → step (s.issue e) = .next t →
    step (t.issue e) = .next t ∧ (∀ n a, e = .read n a → ∃ v, t = { s with response := .data v })

/-! ### Errors and hazards (60_exceptions.md, 70_reset_and_hazards.md) -/

/-- R9, R152: a command that ends with an error leaves the state exactly as it was, but for STATUS, where STICKY is 1. -/
def Obligations.FailedCommandChangesOnlyStatus : Prop :=
  ∀ (w : Word) (s t : State), executeWord w s = .next t → t.status.code ≠ 0 →
    t = { s with status := { code := t.status.code, sticky := true, detail := t.status.detail } }

/-- R150: which codes each command can end with. -/
def Obligations.CommandsReportTheirOwnCodes : Prop :=
  ∀ (i : Instr) (s t : State), exec i s = .next t →
    (i ∈ [Instr.nop, .decfh, .decih, .deccm, .encfh, .encih, .enccm] → t.status.code = 0) ∧
    (i ∈ [Instr.stride, .norm] → t.status.code ∈ ([0, 7] : List (BitVec 4))) ∧
    ((∃ a, i = .synth a) → t.status.code ∈ ([0, 5, 7] : List (BitVec 4))) ∧
    (i = .validate → t.status.code ∈ ([0, 2, 3, 4] : List (BitVec 4)))

/-- R153: STICKY goes from 1 to 0 only by a STATUS write with bit 4 = 1, or by reset. -/
def Obligations.StickyClearedOnlyByHost : Prop :=
  ∀ s t : State, step s = .next t → s.status.sticky = true → t.status.sticky = false →
    ∃ rest, s.pending = .reset :: rest ∨ ∃ v : Word, v.getLsbD 4 = true ∧ s.pending = .write .word 0x304 v :: rest

/-- R28, R175: the stride results change only when a STRIDE, NORM or SYNTH completes, or at reset. -/
def Obligations.StrideResultsGoStale : Prop :=
  ∀ s t : State, step s = .next t → t.sc ≠ s.sc →
    ∃ rest, s.pending = .reset :: rest ∨
      ∃ w ∈ ([0x20, 0x21, 0x22, 0x122] : List Word), s.pending = .write .word 0x300 w :: rest ∧ t.status.code = 0

/-- R177, an inference of the spec's own: a byte of HBUF changes only by a write of that byte, by the ENC* command of its
header, or at reset. -/
def Obligations.HbufWrittenOnlyByHostAndEncode : Prop :=
  ∀ (s t : State) (k : Nat), step s = .next t → t.hbufByte k ≠ s.hbufByte k →
    ∃ rest, s.pending = .reset :: rest ∨
      (∃ n a v, s.pending = .write n a v :: rest ∧ a.toNat ≤ k ∧ k < a.toNat + n.bytes ∧ a.toNat + n.bytes ≤ 138) ∨
      (k < 14 ∧ s.pending = .write .word 0x300 0x11 :: rest) ∨
      (14 ≤ k ∧ k < 54 ∧ s.pending = .write .word 0x300 0x12 :: rest) ∨
      (54 ≤ k ∧ k < 138 ∧ s.pending = .write .word 0x300 0x13 :: rest)

/-- R22, R176, R177: a header's registers change only by a host write of one of them, by its DEC* command, by SYNTH, by
NORM where it writes one of them, or at reset. -/
def Obligations.FieldsWrittenOnlyByTheirCommands : Prop :=
  ∀ s t : State, step s = .next t →
    (t.fh ≠ s.fh → ∃ rest, s.pending = .reset :: rest ∨
      (∃ a v, s.pending = .write .word a v :: rest ∧ 0x100 ≤ a.toNat ∧ a.toNat ≤ 0x110) ∨
      ∃ w ∈ ([0x01, 0x21, 0x22, 0x122] : List Word), s.pending = .write .word 0x300 w :: rest) ∧
    (t.ih ≠ s.ih → ∃ rest, s.pending = .reset :: rest ∨
      (∃ a v, s.pending = .write .word a v :: rest ∧ 0x120 ≤ a.toNat ∧ a.toNat ≤ 0x148) ∨
      ∃ w ∈ ([0x02, 0x21, 0x22, 0x122] : List Word), s.pending = .write .word 0x300 w :: rest) ∧
    (t.cm ≠ s.cm → ∃ rest, s.pending = .reset :: rest ∨
      (∃ a v, s.pending = .write .word a v :: rest ∧ 0x160 ≤ a.toNat ∧ a.toNat ≤ 0x1BC) ∨
      ∃ w ∈ ([0x03, 0x22, 0x122] : List Word), s.pending = .write .word 0x300 w :: rest)

/-! ### Whole runs -/

/-- The invariant holds at reset. -/
def Obligations.ResetSatisfiesInvariant : Prop := State.reset.Inv

/-- Every step from a state with the invariant gives a state with it: HBUF's bytes keep their canonical form inside the
138 bytes, STATUS holds a report of R151 (R150, 93 U6, U7), and the six SC registers are the results of one width, height
and depth (R28, R120). -/
def Obligations.StepKeepsInvariant : Prop := ∀ s t : State, s.Inv → step s = .next t → t.Inv

/-- R50 to R54, R56: a host that only issues admitted accesses never meets a bus error, and the machine runs on until it
has none left. -/
def Obligations.AdmittedHostNeverFaults : Prop :=
  ∀ s : State, (∀ e ∈ s.pending, e.admitted) →
    s.busSafe ∧ ∃ t, Reaches s t ∧ t.pending = [] ∧ step t = .fault .hostIdle

/-- R30, R55: CODE and DETAIL change only by a CMD write or at reset, and STICKY rises only by a CMD write whose command
ends with an error. Where STICKY falls is `StickyClearedOnlyByHost`. -/
def Obligations.StatusReportedOnlyByCommands : Prop :=
  ∀ s t : State, step s = .next t →
    (t.status.code ≠ s.status.code ∨ t.status.detail ≠ s.status.detail → ∃ rest, s.pending = .reset :: rest ∨
      ∃ w : Word, s.pending = .write .word 0x300 w :: rest) ∧
    (s.status.sticky = false → t.status.sticky = true → t.status.code ≠ 0 ∧
      ∃ rest, ∃ w : Word, s.pending = .write .word 0x300 w :: rest)
end

