-- ==== Sys2Proof/Laws/State.lean ====
section
/-! SUPPORT. One lemma per field per update of State, true by rfl. -/

namespace Sys2Proof.Machine

/-! ### complete -/

@[simp] theorem State.complete_hbuf (s : State) : (s.complete).hbuf = s.hbuf := rfl
@[simp] theorem State.complete_fh (s : State) : (s.complete).fh = s.fh := rfl
@[simp] theorem State.complete_ih (s : State) : (s.complete).ih = s.ih := rfl
@[simp] theorem State.complete_cm (s : State) : (s.complete).cm = s.cm := rfl
@[simp] theorem State.complete_sc (s : State) : (s.complete).sc = s.sc := rfl
@[simp] theorem State.complete_status (s : State) : (s.complete).status = { s.status with code := 0, detail := 0 } := rfl
@[simp] theorem State.complete_response (s : State) : (s.complete).response = s.response := rfl
@[simp] theorem State.complete_pending (s : State) : (s.complete).pending = s.pending := rfl
@[simp] theorem State.complete_resets (s : State) : (s.complete).resets = s.resets := rfl

/-! ### raiseError -/

@[simp] theorem State.raiseError_hbuf (s : State) (e : CmdError) : (s.raiseError e).hbuf = s.hbuf := rfl
@[simp] theorem State.raiseError_fh (s : State) (e : CmdError) : (s.raiseError e).fh = s.fh := rfl
@[simp] theorem State.raiseError_ih (s : State) (e : CmdError) : (s.raiseError e).ih = s.ih := rfl
@[simp] theorem State.raiseError_cm (s : State) (e : CmdError) : (s.raiseError e).cm = s.cm := rfl
@[simp] theorem State.raiseError_sc (s : State) (e : CmdError) : (s.raiseError e).sc = s.sc := rfl
@[simp] theorem State.raiseError_status (s : State) (e : CmdError) : (s.raiseError e).status = { code := e.code.bits, sticky := true, detail := e.detail.bits } := rfl
@[simp] theorem State.raiseError_response (s : State) (e : CmdError) : (s.raiseError e).response = s.response := rfl
@[simp] theorem State.raiseError_pending (s : State) (e : CmdError) : (s.raiseError e).pending = s.pending := rfl
@[simp] theorem State.raiseError_resets (s : State) (e : CmdError) : (s.raiseError e).resets = s.resets := rfl

/-! ### clearSticky -/

@[simp] theorem State.clearSticky_hbuf (s : State) : (s.clearSticky).hbuf = s.hbuf := rfl
@[simp] theorem State.clearSticky_fh (s : State) : (s.clearSticky).fh = s.fh := rfl
@[simp] theorem State.clearSticky_ih (s : State) : (s.clearSticky).ih = s.ih := rfl
@[simp] theorem State.clearSticky_cm (s : State) : (s.clearSticky).cm = s.cm := rfl
@[simp] theorem State.clearSticky_sc (s : State) : (s.clearSticky).sc = s.sc := rfl
@[simp] theorem State.clearSticky_status (s : State) : (s.clearSticky).status = { s.status with sticky := false } := rfl
@[simp] theorem State.clearSticky_response (s : State) : (s.clearSticky).response = s.response := rfl
@[simp] theorem State.clearSticky_pending (s : State) : (s.clearSticky).pending = s.pending := rfl
@[simp] theorem State.clearSticky_resets (s : State) : (s.clearSticky).resets = s.resets := rfl

/-! ### respond -/

@[simp] theorem State.respond_hbuf (s : State) (r : Response) : (s.respond r).hbuf = s.hbuf := rfl
@[simp] theorem State.respond_fh (s : State) (r : Response) : (s.respond r).fh = s.fh := rfl
@[simp] theorem State.respond_ih (s : State) (r : Response) : (s.respond r).ih = s.ih := rfl
@[simp] theorem State.respond_cm (s : State) (r : Response) : (s.respond r).cm = s.cm := rfl
@[simp] theorem State.respond_sc (s : State) (r : Response) : (s.respond r).sc = s.sc := rfl
@[simp] theorem State.respond_status (s : State) (r : Response) : (s.respond r).status = s.status := rfl
@[simp] theorem State.respond_response (s : State) (r : Response) : (s.respond r).response = r := rfl
@[simp] theorem State.respond_pending (s : State) (r : Response) : (s.respond r).pending = s.pending := rfl
@[simp] theorem State.respond_resets (s : State) (r : Response) : (s.respond r).resets = s.resets := rfl

/-! ### memWrite -/

@[simp] theorem State.memWrite_hbuf (s : State) (off n : Nat) (v : Word) : (s.memWrite off n v).hbuf = s.hbuf.store off (leBytes n v) := rfl
@[simp] theorem State.memWrite_fh (s : State) (off n : Nat) (v : Word) : (s.memWrite off n v).fh = s.fh := rfl
@[simp] theorem State.memWrite_ih (s : State) (off n : Nat) (v : Word) : (s.memWrite off n v).ih = s.ih := rfl
@[simp] theorem State.memWrite_cm (s : State) (off n : Nat) (v : Word) : (s.memWrite off n v).cm = s.cm := rfl
@[simp] theorem State.memWrite_sc (s : State) (off n : Nat) (v : Word) : (s.memWrite off n v).sc = s.sc := rfl
@[simp] theorem State.memWrite_status (s : State) (off n : Nat) (v : Word) : (s.memWrite off n v).status = s.status := rfl
@[simp] theorem State.memWrite_response (s : State) (off n : Nat) (v : Word) : (s.memWrite off n v).response = s.response := rfl
@[simp] theorem State.memWrite_pending (s : State) (off n : Nat) (v : Word) : (s.memWrite off n v).pending = s.pending := rfl
@[simp] theorem State.memWrite_resets (s : State) (off n : Nat) (v : Word) : (s.memWrite off n v).resets = s.resets := rfl

/-! ### issue -/

@[simp] theorem State.issue_hbuf (s : State) (e : HostEvent) : (s.issue e).hbuf = s.hbuf := rfl
@[simp] theorem State.issue_fh (s : State) (e : HostEvent) : (s.issue e).fh = s.fh := rfl
@[simp] theorem State.issue_ih (s : State) (e : HostEvent) : (s.issue e).ih = s.ih := rfl
@[simp] theorem State.issue_cm (s : State) (e : HostEvent) : (s.issue e).cm = s.cm := rfl
@[simp] theorem State.issue_sc (s : State) (e : HostEvent) : (s.issue e).sc = s.sc := rfl
@[simp] theorem State.issue_status (s : State) (e : HostEvent) : (s.issue e).status = s.status := rfl
@[simp] theorem State.issue_response (s : State) (e : HostEvent) : (s.issue e).response = s.response := rfl
@[simp] theorem State.issue_pending (s : State) (e : HostEvent) : (s.issue e).pending = e :: s.pending := rfl
@[simp] theorem State.issue_resets (s : State) (e : HostEvent) : (s.issue e).resets = s.resets := rfl

/-! ### afterBusError -/

@[simp] theorem State.afterBusError_hbuf (s : State) : (s.afterBusError).hbuf = s.hbuf := rfl
@[simp] theorem State.afterBusError_fh (s : State) : (s.afterBusError).fh = s.fh := rfl
@[simp] theorem State.afterBusError_ih (s : State) : (s.afterBusError).ih = s.ih := rfl
@[simp] theorem State.afterBusError_cm (s : State) : (s.afterBusError).cm = s.cm := rfl
@[simp] theorem State.afterBusError_sc (s : State) : (s.afterBusError).sc = s.sc := rfl
@[simp] theorem State.afterBusError_status (s : State) : (s.afterBusError).status = s.status := rfl
@[simp] theorem State.afterBusError_response (s : State) : (s.afterBusError).response = s.response := rfl
@[simp] theorem State.afterBusError_pending (s : State) : (s.afterBusError).pending = s.pending.tail := rfl
@[simp] theorem State.afterBusError_resets (s : State) : (s.afterBusError).resets = s.resets := rfl

/-! ### pulseReset -/

@[simp] theorem State.pulseReset_hbuf (s : State) : (s.pulseReset).hbuf = [] := rfl
@[simp] theorem State.pulseReset_fh (s : State) : (s.pulseReset).fh = .reset := rfl
@[simp] theorem State.pulseReset_ih (s : State) : (s.pulseReset).ih = .reset := rfl
@[simp] theorem State.pulseReset_cm (s : State) : (s.pulseReset).cm = .reset := rfl
@[simp] theorem State.pulseReset_sc (s : State) : (s.pulseReset).sc = .reset := rfl
@[simp] theorem State.pulseReset_status (s : State) : (s.pulseReset).status = .reset := rfl
@[simp] theorem State.pulseReset_response (s : State) : (s.pulseReset).response = .none := rfl
@[simp] theorem State.pulseReset_pending (s : State) : (s.pulseReset).pending = s.pending := rfl
@[simp] theorem State.pulseReset_resets (s : State) : (s.pulseReset).resets = s.resets + 1 := rfl

/-! ### writeField: only the register's own header -/

@[simp] theorem State.writeField_hbuf (s : State) (r : FieldReg) (v : Word) : (s.writeField r v).hbuf = s.hbuf := by
  cases r <;> rfl
@[simp] theorem State.writeField_sc (s : State) (r : FieldReg) (v : Word) : (s.writeField r v).sc = s.sc := by
  cases r <;> rfl
@[simp] theorem State.writeField_status (s : State) (r : FieldReg) (v : Word) : (s.writeField r v).status = s.status := by
  cases r <;> rfl
@[simp] theorem State.writeField_response (s : State) (r : FieldReg) (v : Word) : (s.writeField r v).response = s.response := by
  cases r <;> rfl
@[simp] theorem State.writeField_pending (s : State) (r : FieldReg) (v : Word) : (s.writeField r v).pending = s.pending := by
  cases r <;> rfl
@[simp] theorem State.writeField_resets (s : State) (r : FieldReg) (v : Word) : (s.writeField r v).resets = s.resets := by
  cases r <;> rfl

/-! ### writeStatus: STICKY only (R54) -/

theorem State.writeStatus_eq (s : State) (v : Word) :
    s.writeStatus v = { s with status := { s.status with sticky := s.status.sticky && !v.getLsbD 4 } } := by
  unfold State.writeStatus
  cases v.getLsbD 4
  · rw [Bool.not_false, Bool.and_true]
    rfl
  · rw [Bool.not_true, Bool.and_false]
    rfl

/-! ### Reads of HBUF under updates that do not touch it -/

@[simp] theorem State.complete_hbufByte (s : State) (k : Nat) : s.complete.hbufByte k = s.hbufByte k := rfl
@[simp] theorem State.raiseError_hbufByte (s : State) (e : CmdError) (k : Nat) :
    (s.raiseError e).hbufByte k = s.hbufByte k := rfl
@[simp] theorem State.clearSticky_hbufByte (s : State) (k : Nat) : s.clearSticky.hbufByte k = s.hbufByte k := rfl
@[simp] theorem State.respond_hbufByte (s : State) (r : Response) (k : Nat) :
    (s.respond r).hbufByte k = s.hbufByte k := rfl

/-- HBUF's reading depends on the listed bytes and the reset's number only. -/
theorem State.hbufByte_congr {s t : State} (h : s.hbuf = t.hbuf) (hr : s.resets = t.resets) (k : Nat) :
    s.hbufByte k = t.hbufByte k := by
  simp [State.hbufByte, h, hr]

@[simp] theorem State.writeField_hbufByte (s : State) (r : FieldReg) (v : Word) (k : Nat) :
    (s.writeField r v).hbufByte k = s.hbufByte k :=
  State.hbufByte_congr (by simp) (by simp) k

/-- The field registers read the three headers only. -/
theorem State.readField_congr {s t : State} (hf : s.fh = t.fh) (hi : s.ih = t.ih) (hc : s.cm = t.cm) (r : FieldReg) :
    s.readField r = t.readField r := by
  cases r <;> simp [State.readField, hf, hi, hc]

@[simp] theorem State.memWrite_readField (s : State) (off n : Nat) (v : Word) (r : FieldReg) :
    (s.memWrite off n v).readField r = s.readField r :=
  State.readField_congr rfl rfl rfl r

end Sys2Proof.Machine
end

