-- ==== Sys2Proof/Laws/Memory.lean ====
section
/-! SUPPORT. HBUF as memory: what a read gives after a write, the canonical form, and the little-endian values. -/

namespace Sys2Proof.Machine

/-! ### One byte -/

@[simp] theorem Memory.get?_set_self (m : Memory) (a : Nat) (b : Byte) : (m.set a b).get? a = some b := by
  induction m with
  | nil => simp [Memory.set, Memory.get?]
  | cons c m ih =>
    obtain ⟨k, x⟩ := c
    simp only [Memory.set]
    split
    · simp [Memory.get?]
    · split
      · simp [Memory.get?]
      · rename_i h
        simp [Memory.get?, h, ih]

theorem Memory.get?_set_ne (m : Memory) {a a' : Nat} (b : Byte) (h : a' ≠ a) : (m.set a b).get? a' = m.get? a' := by
  induction m with
  | nil => simp [Memory.set, Memory.get?, h]
  | cons c m ih =>
    obtain ⟨k, x⟩ := c
    simp only [Memory.set]
    split
    · simp [Memory.get?, h]
    · split
      · rename_i h2
        subst h2
        simp [Memory.get?, h]
      · simp [Memory.get?, ih]

theorem Memory.get?_set (m : Memory) (a a' : Nat) (b : Byte) :
    (m.set a b).get? a' = if a' = a then some b else m.get? a' := by
  split
  · subst a'; simp
  · exact Memory.get?_set_ne m b ‹_›

/-! ### The canonical form -/

theorem Memory.mem_set {m : Memory} {a : Nat} {b : Byte} {c : Host.Cell} (h : c ∈ m.set a b) : c = (a, b) ∨ c ∈ m := by
  induction m with
  | nil => simpa [Memory.set] using h
  | cons d m ih =>
    obtain ⟨k, x⟩ := d
    simp only [Memory.set] at h
    split at h
    · simpa using h
    · split at h
      · simp at h ⊢; tauto
      · simp only [List.mem_cons] at h ⊢
        rcases h with h | h
        · exact .inr (.inl h)
        · rcases ih h with h | h <;> simp [h]

theorem Memory.wf_nil : Memory.wf [] := ⟨List.Pairwise.nil, by simp⟩

theorem Memory.wf_set {m : Memory} (h : m.wf) {a : Nat} (ha : a < Config.hbufSize) (b : Byte) : (m.set a b).wf := by
  refine ⟨?_, ?_⟩
  · have hp := h.1
    clear h ha
    induction m with
    | nil => simp [Memory.set]
    | cons d m ih =>
      obtain ⟨k, x⟩ := d
      rw [List.pairwise_cons] at hp
      simp only [Memory.set]
      split
      · rename_i hlt
        rw [List.pairwise_cons]
        refine ⟨?_, List.pairwise_cons.mpr hp⟩
        intro c hc
        rcases List.mem_cons.mp hc with rfl | hc
        · exact hlt
        · exact Nat.lt_trans hlt (hp.1 c hc)
      · split
        · rename_i h1 h2
          subst h2
          exact List.pairwise_cons.mpr ⟨hp.1, hp.2⟩
        · rename_i h1 h2
          rw [List.pairwise_cons]
          refine ⟨?_, ih hp.2⟩
          intro c hc
          rcases Memory.mem_set hc with rfl | hc
          · show k < a
            omega
          · exact hp.1 c hc
  · intro c hc
    rcases Memory.mem_set hc with rfl | hc
    · exact ha
    · exact h.2 c hc

theorem Memory.wf_store {m : Memory} (h : m.wf) {a : Nat} {bs : List Byte} (ha : a + bs.length ≤ Config.hbufSize) :
    (m.store a bs).wf := by
  induction bs generalizing m a with
  | nil => exact h
  | cons b bs ih =>
    rw [List.length_cons] at ha
    exact ih (Memory.wf_set h (by omega) b) (by omega)

/-- Canonical memories that read the same are the same data. -/
theorem Memory.ext_of_wf {m n : Memory} (hm : m.wf) (hn : n.wf) (h : ∀ a, m.get? a = n.get? a) : m = n := by
  have low : ∀ {k : Nat} {l : Memory}, (∀ c ∈ l, k < c.1) → Memory.get? l k = none := by
    intro k l hl
    induction l with
    | nil => rfl
    | cons c l ih =>
      obtain ⟨j, x⟩ := c
      have hj : k < j := hl (j, x) (by simp)
      simp only [Memory.get?, if_neg (Nat.ne_of_lt hj)]
      exact ih fun c hc => hl c (by simp [hc])
  replace hm := hm.1
  replace hn := hn.1
  induction m generalizing n with
  | nil =>
    cases n with
    | nil => rfl
    | cons d n =>
      have := h d.1
      simp [Memory.get?] at this
  | cons c m ih =>
    cases n with
    | nil =>
      have := h c.1
      simp [Memory.get?] at this
    | cons d n =>
      obtain ⟨j, x⟩ := c
      obtain ⟨k, y⟩ := d
      rw [List.pairwise_cons] at hm hn
      have hj : Memory.get? m j = none := low hm.1
      have hk : Memory.get? n k = none := low hn.1
      have hkj : j = k := by
        rcases Nat.lt_trichotomy j k with hlt | heq | hgt
        · have h1 := h j
          have h2 : Memory.get? n j = none := low fun c hc => Nat.lt_trans hlt (hn.1 c hc)
          simp [Memory.get?, h2, Nat.ne_of_lt hlt] at h1
        · exact heq
        · have h1 := h k
          have h2 : Memory.get? m k = none := low fun c hc => Nat.lt_trans hgt (hm.1 c hc)
          simp [Memory.get?, h2, Nat.ne_of_lt hgt] at h1
      subst hkj
      have hxy : x = y := by simpa [Memory.get?] using h j
      subst hxy
      congr 1
      refine ih (fun a => ?_) hm.2 hn.2
      by_cases ha : a = j
      · subst ha; rw [hj, hk]
      · simpa [Memory.get?, ha] using h a

/-! ### Consecutive bytes -/

theorem Memory.get?_store (m : Memory) (a : Nat) (bs : List Byte) (k : Nat) :
    (m.store a bs).get? k = if a ≤ k ∧ k < a + bs.length then bs[k - a]? else m.get? k := by
  induction bs generalizing m a with
  | nil =>
    simp only [List.length_nil]
    rw [if_neg (by omega)]
    rfl
  | cons b bs ih =>
    rw [Memory.store, ih, List.length_cons]
    by_cases h : a + 1 ≤ k ∧ k < a + 1 + bs.length
    · rw [if_pos h, if_pos (by omega), List.getElem?_cons, if_neg (by omega)]
      congr 1
    · rw [if_neg h, Memory.get?_set]
      by_cases hk : k = a
      · subst hk
        rw [if_pos rfl, if_pos (by omega)]
        simp
      · rw [if_neg hk, if_neg (by omega)]

@[simp] theorem length_leBytes (n : Nat) (v : Word) : (leBytes n v).length = n := by
  induction n generalizing v with
  | zero => rfl
  | succ n ih => simp [leBytes, ih]

/-- Byte i of a value is `v[8i+7:8i]` (R7). -/
theorem getElem?_leBytes (n : Nat) (v : Word) (i : Nat) :
    (leBytes n v)[i]? = if i < n then some (v.extractLsb' (8 * i) 8) else none := by
  induction n generalizing v i with
  | zero => simp [leBytes]
  | succ n ih =>
    cases i with
    | zero => simp [leBytes, BitVec.setWidth_eq_extractLsb']
    | succ i =>
      simp only [leBytes, List.getElem?_cons_succ, ih, Nat.add_lt_add_iff_right]
      congr 2
      ext j hj
      simp only [BitVec.getElem_extractLsb', BitVec.getLsbD_ushiftRight]
      congr 1
      omega

/-- What HBUF holds after MemWrite (R9): byte i of `v` at off + i, every other byte as before. -/
theorem State.memWrite_hbufByte (s : State) (off n : Nat) (v : Word) (k : Nat) :
    (s.memWrite off n v).hbufByte k =
      if off ≤ k ∧ k < off + n then v.extractLsb' (8 * (k - off)) 8 else s.hbufByte k := by
  simp only [State.hbufByte, State.memWrite_hbuf, State.memWrite_resets, Memory.get?_store, length_leBytes]
  split
  · rename_i b h
    split at h
    · rename_i hk
      rw [getElem?_leBytes, if_pos (by omega)] at h
      rw [if_pos hk]
      exact (Option.some.inj h).symm
    · rename_i hk
      rw [if_neg hk, h]
  · rename_i h
    split at h
    · rename_i hk
      rw [getElem?_leBytes, if_pos (by omega)] at h
      cases h
    · rename_i hk
      rw [if_neg hk, h]

/-! ### Little-endian values -/

theorem leValue_lt (bs : List Byte) : leValue bs < 256 ^ bs.length := by
  induction bs with
  | nil => simp [leValue]
  | cons b bs ih =>
    have := b.isLt
    simp only [leValue, List.length_cons, pow_succ]
    omega

/-- The bytes of a value, read back as a number (R9). -/
theorem leValue_leBytes (n : Nat) (v : Word) : leValue (leBytes n v) = v.toNat % 256 ^ n := by
  induction n generalizing v with
  | zero => simp [leBytes, leValue, Nat.mod_one]
  | succ n ih =>
    have h : (v >>> 8).toNat = v.toNat / 256 := by simp [Nat.shiftRight_eq_div_pow]
    rw [leBytes, leValue, ih, h, BitVec.toNat_setWidth, show 256 ^ (n + 1) = 256 * 256 ^ n from by ring, Nat.mod_mul]

@[simp] theorem State.length_hbufBytes (s : State) (off n : Nat) : (s.hbufBytes off n).length = n := by
  induction n generalizing off with
  | zero => rfl
  | succ n ih => simp [State.hbufBytes, ih]

/-- Consecutive bytes, cut in two. -/
theorem State.hbufBytes_add (s : State) (off n m : Nat) :
    s.hbufBytes off (n + m) = s.hbufBytes off n ++ s.hbufBytes (off + n) m := by
  induction n generalizing off with
  | zero => simp [State.hbufBytes]
  | succ n ih =>
    rw [Nat.succ_add, State.hbufBytes, ih, State.hbufBytes, List.cons_append, Nat.add_assoc, Nat.add_comm 1 n]

/-- A byte of a run of bytes. -/
theorem State.getElem?_hbufBytes (s : State) (off n i : Nat) :
    (s.hbufBytes off n)[i]? = if i < n then some (s.hbufByte (off + i)) else none := by
  induction n generalizing off i with
  | zero => simp [State.hbufBytes]
  | succ n ih =>
    cases i with
    | zero => simp [State.hbufBytes]
    | succ i =>
      simp only [State.hbufBytes, List.getElem?_cons_succ, ih, Nat.add_lt_add_iff_right]
      congr 3
      omega

theorem State.hbufBytes_congr {s t : State} {off n : Nat} (h : ∀ k, off ≤ k → k < off + n → s.hbufByte k = t.hbufByte k) :
    s.hbufBytes off n = t.hbufBytes off n := by
  induction n generalizing off with
  | zero => rfl
  | succ n ih =>
    simp only [State.hbufBytes]
    rw [h off (by omega) (by omega), ih fun k h1 h2 => h k (by omega) (by omega)]

theorem State.memRead_congr {s t : State} {off n : Nat} (h : ∀ k, off ≤ k → k < off + n → s.hbufByte k = t.hbufByte k) :
    s.memRead off n = t.memRead off n := by
  rw [State.memRead, State.memRead, State.hbufBytes_congr h]

/-- MemRead of 1 byte. -/
theorem State.memRead_one (s : State) (off : Nat) : s.memRead off 1 = (s.hbufByte off).setWidth 32 := by
  apply BitVec.eq_of_toNat_eq
  have := (s.hbufByte off).isLt
  simp [State.memRead, State.hbufBytes, leValue]

/-- MemRead of 2 bytes, the lower offset least significant (R57). -/
theorem State.memRead_two (s : State) (off : Nat) :
    s.memRead off 2 = (s.hbufByte (off + 1) ++ s.hbufByte off).setWidth 32 := by
  apply BitVec.eq_of_toNat_eq
  have h0 := (s.hbufByte off).isLt
  have h1 := (s.hbufByte (off + 1)).isLt
  simp only [State.memRead, State.hbufBytes, leValue, BitVec.toNat_ofNat, BitVec.toNat_setWidth, BitVec.toNat_append,
    Nat.shiftLeft_eq]
  rw [Nat.mul_comm (s.hbufByte (off + 1)).toNat, ← Nat.two_pow_add_eq_or_of_lt h0]
  omega

/-- MemRead of 4 bytes, the lowest offset least significant (R57). -/
theorem State.memRead_four (s : State) (off : Nat) :
    s.memRead off 4 = s.hbufByte (off + 3) ++ s.hbufByte (off + 2) ++ s.hbufByte (off + 1) ++ s.hbufByte off := by
  apply BitVec.eq_of_toNat_eq
  have h0 := (s.hbufByte off).isLt
  have h1 := (s.hbufByte (off + 1)).isLt
  have h2 := (s.hbufByte (off + 2)).isLt
  have h3 := (s.hbufByte (off + 3)).isLt
  have hb : s.hbufBytes off 4 = [s.hbufByte off, s.hbufByte (off + 1), s.hbufByte (off + 2), s.hbufByte (off + 3)] := rfl
  simp only [State.memRead, hb, leValue, BitVec.toNat_ofNat, BitVec.toNat_append, Nat.shiftLeft_eq]
  rw [Nat.mul_comm _ (2 ^ 8), Nat.mul_comm _ (2 ^ 8), Nat.mul_comm _ (2 ^ 8), ← Nat.two_pow_add_eq_or_of_lt h0,
    ← Nat.two_pow_add_eq_or_of_lt h1, ← Nat.two_pow_add_eq_or_of_lt h2]
  omega

/-- The bytes of the value read from a list of bytes are those bytes. -/
theorem leBytes_leValue {bs : List Byte} (h : bs.length ≤ 4) :
    leBytes bs.length (BitVec.ofNat 32 (leValue bs)) = bs := by
  match bs, h with
  | [], _ => rfl
  | b :: bs, h =>
    have hl := leValue_lt bs
    have hb := b.isLt
    have hlen : 256 ^ bs.length ≤ 256 ^ 3 := Nat.pow_le_pow_right (by decide) (by simp at h; omega)
    have hmod : leValue (b :: bs) % 2 ^ 32 = leValue (b :: bs) := by
      simp only [leValue]
      omega
    rw [List.length_cons, leBytes, List.cons.injEq]
    constructor
    · apply BitVec.eq_of_toNat_eq
      rw [BitVec.toNat_setWidth, BitVec.toNat_ofNat, hmod, leValue]
      omega
    · have ih := leBytes_leValue (bs := bs) (by simp at h; omega)
      have hs : BitVec.ofNat 32 (leValue (b :: bs)) >>> 8 = BitVec.ofNat 32 (leValue bs) := by
        apply BitVec.eq_of_toNat_eq
        rw [BitVec.toNat_ushiftRight, BitVec.toNat_ofNat, BitVec.toNat_ofNat, hmod, Nat.shiftRight_eq_div_pow, leValue]
        omega
      rw [hs, ih]

/-- Byte j of MemRead(off, n) is HBUF[off + j] (R9, R52). -/
theorem State.extractLsb'_memRead (s : State) (off : Nat) {n j : Nat} (hn : n ≤ 4) (hj : j < n) :
    (s.memRead off n).extractLsb' (8 * j) 8 = s.hbufByte (off + j) := by
  have h := congrArg (·[j]?) (leBytes_leValue (bs := s.hbufBytes off n) (by simpa using hn))
  simp only [State.length_hbufBytes, getElem?_leBytes, State.getElem?_hbufBytes, if_pos hj] at h
  exact Option.some.inj h

/-- Two values made of a byte and the bytes above it are equal part by part. -/
theorem append_byte_inj {w : Nat} {x y : BitVec w} {b c : Byte} : x ++ b = y ++ c ↔ x = y ∧ b = c := by
  constructor
  · intro h
    have hn := congrArg BitVec.toNat h
    have hb := b.isLt
    have hc := c.isLt
    simp only [BitVec.toNat_append, Nat.shiftLeft_eq] at hn
    rw [Nat.mul_comm, Nat.mul_comm y.toNat, ← Nat.two_pow_add_eq_or_of_lt hb, ← Nat.two_pow_add_eq_or_of_lt hc] at hn
    exact ⟨BitVec.eq_of_toNat_eq (by omega), BitVec.eq_of_toNat_eq (by omega)⟩
  · rintro ⟨rfl, rfl⟩
    rfl

end Sys2Proof.Machine
end

