-- ==== Sys2Proof/Laws/Codec.lean ====
section
/-! SUPPORT. Decode(L) and Encode(L): what they leave alone, and what the three field lists give. -/

namespace Sys2Proof.Machine

/-! ### Decode(L) -/

@[simp] theorem decodeFields_hbuf (L : List Field) (s : State) : (decodeFields L s).hbuf = s.hbuf := by
  induction L generalizing s with
  | nil => rfl
  | cons f L ih => simp [decodeFields, ih]

@[simp] theorem decodeFields_sc (L : List Field) (s : State) : (decodeFields L s).sc = s.sc := by
  induction L generalizing s with
  | nil => rfl
  | cons f L ih => simp [decodeFields, ih]

@[simp] theorem decodeFields_status (L : List Field) (s : State) : (decodeFields L s).status = s.status := by
  induction L generalizing s with
  | nil => rfl
  | cons f L ih => simp [decodeFields, ih]

@[simp] theorem decodeFields_response (L : List Field) (s : State) : (decodeFields L s).response = s.response := by
  induction L generalizing s with
  | nil => rfl
  | cons f L ih => simp [decodeFields, ih]

@[simp] theorem decodeFields_pending (L : List Field) (s : State) : (decodeFields L s).pending = s.pending := by
  induction L generalizing s with
  | nil => rfl
  | cons f L ih => simp [decodeFields, ih]

@[simp] theorem decodeFields_resets (L : List Field) (s : State) : (decodeFields L s).resets = s.resets := by
  induction L generalizing s with
  | nil => rfl
  | cons f L ih => simp [decodeFields, ih]

@[simp] theorem State.writeField_memRead (s : State) (r : FieldReg) (v : Word) (off n : Nat) :
    (s.writeField r v).memRead off n = s.memRead off n :=
  State.memRead_congr fun k _ _ => by simp

theorem decodeFields_append (L M : List Field) (s : State) :
    decodeFields (L ++ M) s = decodeFields M (decodeFields L s) := by
  induction L generalizing s with
  | nil => rfl
  | cons f L ih => exact ih _

/-- Decode(FH_FIELDS), each register from its bytes (R80, R100). -/
theorem decodeFields_fhFields (s : State) :
    decodeFields fhFields s =
      { s with fh := {
          type := (s.memRead 0 2).setWidth 16
          size := s.memRead 2 4
          res1 := (s.memRead 6 2).setWidth 16
          res2 := (s.memRead 8 2).setWidth 16
          offBits := s.memRead 10 4 } } := by
  simp only [fhFields, decodeFields, State.writeField_memRead]
  simp only [State.writeField]

/-- Decode(IH_FIELDS), each register from its bytes (R81, R100). -/
theorem decodeFields_ihFields (s : State) :
    decodeFields ihFields s =
      { s with ih := {
          size := s.memRead 14 4
          width := s.memRead 18 4
          height := s.memRead 22 4
          planes := (s.memRead 26 2).setWidth 16
          bitCount := (s.memRead 28 2).setWidth 16
          compression := s.memRead 30 4
          sizeImage := s.memRead 34 4
          xppm := s.memRead 38 4
          yppm := s.memRead 42 4
          clrUsed := s.memRead 46 4
          clrImportant := s.memRead 50 4 } } := by
  simp only [ihFields, decodeFields, State.writeField_memRead]
  simp only [State.writeField]

/-- CM_FIELDS written out. -/
theorem cmFields_eq : cmFields =
    [⟨.cmRed, 54, 4⟩, ⟨.cmGreen, 58, 4⟩, ⟨.cmBlue, 62, 4⟩, ⟨.cmAlpha, 66, 4⟩, ⟨.cmCsType, 70, 4⟩,
      ⟨.cmUnused 0, 74, 4⟩, ⟨.cmUnused 1, 78, 4⟩, ⟨.cmUnused 2, 82, 4⟩, ⟨.cmUnused 3, 86, 4⟩, ⟨.cmUnused 4, 90, 4⟩,
      ⟨.cmUnused 5, 94, 4⟩, ⟨.cmUnused 6, 98, 4⟩, ⟨.cmUnused 7, 102, 4⟩, ⟨.cmUnused 8, 106, 4⟩,
      ⟨.cmUnused 9, 110, 4⟩, ⟨.cmUnused 10, 114, 4⟩, ⟨.cmUnused 11, 118, 4⟩, ⟨.cmUnused 12, 122, 4⟩,
      ⟨.cmUnused 13, 126, 4⟩, ⟨.cmUnused 14, 130, 4⟩, ⟨.cmUnused 15, 134, 4⟩] := by
  decide

/-- Decode(CM_FIELDS), each register from its bytes (R82, R100). -/
theorem decodeFields_cmFields (s : State) :
    decodeFields cmFields s =
      { s with cm := {
          red := s.memRead 54 4
          green := s.memRead 58 4
          blue := s.memRead 62 4
          alpha := s.memRead 66 4
          csType := s.memRead 70 4
          unused := Vector.ofFn fun i => s.memRead (74 + 4 * i.val) 4 } } := by
  have hv : ∀ (u : Vector Word 16) (f : Nat → Word),
      ((((((((((((((((u.set 0 (f 74)).set 1 (f 78)).set 2 (f 82)).set 3 (f 86)).set 4 (f 90)).set 5 (f 94)).set 6
        (f 98)).set 7 (f 102)).set 8 (f 106)).set 9 (f 110)).set 10 (f 114)).set 11 (f 118)).set 12 (f 122)).set 13
        (f 126)).set 14 (f 130)).set 15 (f 134)) = Vector.ofFn fun i : Fin 16 => f (74 + 4 * i.val) := by
    intro u f
    ext i hi
    simp only [Vector.getElem_ofFn, Vector.getElem_set]
    interval_cases i <;> rfl
  rw [← hv s.cm.unused fun o => s.memRead o 4]
  simp only [cmFields_eq, decodeFields, State.writeField_memRead]
  simp only [State.writeField]
  rfl

/-! ### Encode(L) -/

/-- The bytes of HBUF that a list of fields covers. -/
abbrev covers (L : List Field) (k : Nat) : Prop := ∃ f ∈ L, f.off ≤ k ∧ k < f.off + f.bytes

/-- Encode(L) changes HBUF's bytes only. -/
theorem encodeFields_eq (L : List Field) (s : State) :
    encodeFields L s = { s with hbuf := (encodeFields L s).hbuf } := by
  induction L generalizing s with
  | nil => rfl
  | cons f L ih =>
    rw [encodeFields, ih]
    rfl

@[simp] theorem encodeFields_fh (L : List Field) (s : State) : (encodeFields L s).fh = s.fh := by rw [encodeFields_eq]
@[simp] theorem encodeFields_ih (L : List Field) (s : State) : (encodeFields L s).ih = s.ih := by rw [encodeFields_eq]
@[simp] theorem encodeFields_cm (L : List Field) (s : State) : (encodeFields L s).cm = s.cm := by rw [encodeFields_eq]
@[simp] theorem encodeFields_sc (L : List Field) (s : State) : (encodeFields L s).sc = s.sc := by rw [encodeFields_eq]
@[simp] theorem encodeFields_status (L : List Field) (s : State) : (encodeFields L s).status = s.status := by
  rw [encodeFields_eq]
@[simp] theorem encodeFields_response (L : List Field) (s : State) : (encodeFields L s).response = s.response := by
  rw [encodeFields_eq]
@[simp] theorem encodeFields_pending (L : List Field) (s : State) : (encodeFields L s).pending = s.pending := by
  rw [encodeFields_eq]
@[simp] theorem encodeFields_resets (L : List Field) (s : State) : (encodeFields L s).resets = s.resets := by
  rw [encodeFields_eq]

/-- Encode(L) leaves every byte outside its fields as it was. -/
theorem encodeFields_hbufByte_of_not_covers {L : List Field} (s : State) {k : Nat} (h : ¬ covers L k) :
    (encodeFields L s).hbufByte k = s.hbufByte k := by
  induction L generalizing s with
  | nil => rfl
  | cons f L ih =>
    rw [encodeFields, ih _ fun ⟨g, hg, hk⟩ => h ⟨g, List.mem_cons_of_mem _ hg, hk⟩, State.memWrite_hbufByte,
      if_neg fun hk => h ⟨f, by simp, hk⟩]

/-- Encode(L), its fields in rising order and apart, puts byte i of a field's register at the field's offset + i. -/
theorem encodeFields_hbufByte {L : List Field} (hL : L.Pairwise fun f g => f.off + f.bytes ≤ g.off) (s : State)
    {f : Field} (hf : f ∈ L) {i : Nat} (hi : i < f.bytes) :
    (encodeFields L s).hbufByte (f.off + i) = (s.readField f.reg).extractLsb' (8 * i) 8 := by
  induction L generalizing s with
  | nil => cases hf
  | cons g L ih =>
    rw [List.pairwise_cons] at hL
    rcases List.mem_cons.mp hf with rfl | hf
    · rw [encodeFields, encodeFields_hbufByte_of_not_covers, State.memWrite_hbufByte, if_pos (by omega),
        Nat.add_sub_cancel_left]
      rintro ⟨g, hg, hk⟩
      have := hL.1 g hg
      omega
    · rw [encodeFields, ih hL.2 _ hf, State.memWrite_readField]

/-- Encode(L), its fields in rising order and apart, puts a field's register at its offset, least significant byte
first. -/
theorem encodeFields_hbufBytes {L : List Field} (hL : L.Pairwise fun f g => f.off + f.bytes ≤ g.off) (s : State)
    {f : Field} (hf : f ∈ L) :
    (encodeFields L s).hbufBytes f.off f.bytes = leBytes f.bytes (s.readField f.reg) := by
  apply List.ext_getElem?
  intro i
  rw [State.getElem?_hbufBytes, getElem?_leBytes]
  split
  · rename_i hi
    rw [encodeFields_hbufByte hL s hf hi]
  · rfl

/-- An ENC* command changes HBUF and STATUS only. -/
theorem encodeFields_complete_eq {L : List Field} {s t : State} (h : t = (encodeFields L s).complete) :
    t = { s with hbuf := t.hbuf, status := { s.status with code := 0, detail := 0 } } := by
  subst h
  rw [State.complete_hbuf, State.complete]
  conv_lhs => rw [encodeFields_eq]

theorem pairwise_fhFields : fhFields.Pairwise fun f g => f.off + f.bytes ≤ g.off := by decide
theorem pairwise_ihFields : ihFields.Pairwise fun f g => f.off + f.bytes ≤ g.off := by decide
theorem pairwise_cmFields : cmFields.Pairwise fun f g => f.off + f.bytes ≤ g.off := by decide

/-- The canonical form is kept by Encode(L) where its fields lie inside HBUF. -/
theorem encodeFields_wf {L : List Field} (hL : ∀ f ∈ L, f.off + f.bytes ≤ Config.hbufSize) {s : State}
    (h : s.hbuf.wf) : (encodeFields L s).hbuf.wf := by
  induction L generalizing s with
  | nil => exact h
  | cons f L ih =>
    rw [encodeFields]
    refine ih (fun g hg => hL g (List.mem_cons_of_mem _ hg)) ?_
    rw [State.memWrite_hbuf]
    exact Memory.wf_store h (by rw [length_leBytes]; exact hL f (by simp))

theorem fhFields_inside : ∀ f ∈ fhFields, f.off + f.bytes ≤ Config.hbufSize := by decide
theorem ihFields_inside : ∀ f ∈ ihFields, f.off + f.bytes ≤ Config.hbufSize := by decide
theorem cmFields_inside : ∀ f ∈ cmFields, f.off + f.bytes ≤ Config.hbufSize := by decide

/-- A field's byte count is its register's width (R100). -/
theorem field_bytes_eq : ∀ f ∈ fhFields ++ ihFields ++ cmFields, f.bytes = f.reg.bytes := by decide

end Sys2Proof.Machine
end

