-- ==== Sys2Proof/Laws/Decode.lean ====
section
/-! SUPPORT. The decoder: what each opcode gives, and what the twelve words are. -/

namespace Sys2Proof

/-- The opcode of a command (R71). -/
def opcodeOf : Instr → Byte
  | .nop => 0x00
  | .decfh => 0x01
  | .decih => 0x02
  | .deccm => 0x03
  | .encfh => 0x11
  | .encih => 0x12
  | .enccm => 0x13
  | .stride => 0x20
  | .norm => 0x21
  | .synth _ => 0x22
  | .validate => 0x30

/-- What the opcode map gives: the command of that opcode, and its A bit for SYNTH. -/
theorem opcode_of_commandOfOp {op : Byte} {a : Bool} {i : Instr} (h : commandOfOp op a = some i) :
    opcodeOf i = op ∧ (∀ b, i = .synth b → b = a) := by
  unfold commandOfOp at h
  repeat' split at h
  all_goals first
    | (cases h; done)
    | (cases h; subst_vars; exact ⟨rfl, fun b hb => by cases hb; try rfl⟩)

/-- A decoded word has its reserved bits 0, and A = 0 outside SYNTH. -/
theorem decode_ok_cases {w : Word} {i : Instr} (h : decode w = .ok i) :
    commandOfOp (opField w) (aField w) = some i ∧ rsvField w = 0 ∧ (aField w = true → opField w = synthOp) := by
  unfold decode at h
  split at h
  · cases h
  · rename_i j hj
    split at h
    · cases h
    · rename_i hr
      cases h
      simp only [ne_eq, not_or, not_not, not_and] at hr
      exact ⟨hj, hr.1, hr.2⟩

end Sys2Proof
end

