-- ==== Sys2Proof/Laws/Stride.lean ====
section
/-! SUPPORT. sext_32 and the stride calculator: its two errors, and the six numbers of a success. -/

namespace Sys2Proof.Machine

/-- sext_32 is the two's complement value (R8). -/
theorem sext32_eq_toInt (v : Word) : sext32 v = v.toInt := by
  have := v.isLt
  rw [sext32, show v.getLsbD 31 = v.msb from (BitVec.msb_eq_getLsbD_last v).symm, BitVec.msb_eq_decide, BitVec.toInt]
  simp only [decide_eq_true_eq]
  split <;> split <;> omega

theorem strideCalc_negDim {w h : Word} {b : Half} (hn : sext32 w < 0 ∨ sext32 h < 0) :
    strideCalc w h b = .error ⟨.arithRange, .negDim⟩ := if_pos hn

/-- A success: the six numbers of R120, all inside 32 bits. -/
theorem strideCalc_ok {w h : Word} {b : Half} {r : StrideResult} (hr : strideCalc w h b = .ok r) :
    0 ≤ sext32 w ∧ 0 ≤ sext32 h ∧ r.channels = b.toNat / 8 ∧ r.row = (sext32 w).toNat * r.channels ∧
      r.aligned = 4 * ((r.row + 3) / 4) ∧ r.aligned = r.row + r.pad ∧ r.pad ≤ 3 ∧
      r.buf = (sext32 w).toNat * (sext32 h).toNat * r.channels ∧ r.disk = (sext32 h).toNat * r.aligned ∧
      r.aligned ≤ maxWord ∧ r.disk ≤ maxWord ∧ r.row ≤ maxWord ∧ r.buf ≤ maxWord ∧ r.buf ≤ r.disk := by
  unfold strideCalc at hr
  split at hr
  · cases hr
  · rename_i hn
    simp only at hr
    split at hr
    · cases hr
    · rename_i hm
      cases hr
      simp only [not_or, not_lt] at hn hm ⊢
      have hle : ∀ x : Nat, x ≤ 4 * ((x + 3) / 4) ∧ 4 * ((x + 3) / 4) ≤ x + 3 := fun x => by omega
      have hrow := hle ((sext32 w).toNat * (b.toNat / 8))
      have hbuf : (sext32 w).toNat * (sext32 h).toNat * (b.toNat / 8) ≤
          (sext32 h).toNat * (4 * (((sext32 w).toNat * (b.toNat / 8) + 3) / 4)) := by
        calc (sext32 w).toNat * (sext32 h).toNat * (b.toNat / 8)
            = (sext32 h).toNat * ((sext32 w).toNat * (b.toNat / 8)) := by ring
          _ ≤ _ := Nat.mul_le_mul_left _ hrow.1
      refine ⟨hn.1, hn.2, trivial, trivial, trivial, ?_, ?_, trivial, trivial, hm.1, hm.2, ?_, ?_, hbuf⟩ <;> omega

/-- The range error: both dimensions non-negative, and the aligned stride or the disk size too large (R120). -/
theorem strideCalc_error {w h : Word} {b : Half} {e : CmdError} (he : strideCalc w h b = .error e) :
    ((sext32 w < 0 ∨ sext32 h < 0) ∧ e = ⟨.arithRange, .negDim⟩) ∨
      (0 ≤ sext32 w ∧ 0 ≤ sext32 h ∧ e = ⟨.arithRange, .range⟩) := by
  unfold strideCalc at he
  split at he
  · rename_i hn
    cases he
    exact .inl ⟨hn, rfl⟩
  · rename_i hn
    simp only at he
    split at he
    · cases he
      simp only [not_or, not_lt] at hn
      exact .inr ⟨hn.1, hn.2, rfl⟩
    · cases he

/-- layoutCalc's success: StrideCalc's, and the file size inside 32 bits (R122). -/
theorem layoutCalc_ok {w h : Word} {b : Half} {m : Bool} {r : StrideResult} {f : Nat}
    (hr : layoutCalc w h b m = .ok (r, f)) :
    strideCalc w h b = .ok r ∧ f = normOffBits m + r.disk ∧ f ≤ maxWord := by
  unfold layoutCalc at hr
  split at hr
  · cases hr
  · rename_i r' hr'
    simp only at hr
    split at hr
    · cases hr
    · rename_i hf
      cases hr
      exact ⟨hr', rfl, Nat.le_of_not_lt hf⟩

/-- layoutCalc's errors: StrideCalc's two. -/
theorem layoutCalc_error {w h : Word} {b : Half} {m : Bool} {e : CmdError} (he : layoutCalc w h b m = .error e) :
    ((sext32 w < 0 ∨ sext32 h < 0) ∧ e = ⟨.arithRange, .negDim⟩) ∨
      (0 ≤ sext32 w ∧ 0 ≤ sext32 h ∧ e = ⟨.arithRange, .range⟩) := by
  unfold layoutCalc at he
  split at he
  · rename_i e' he'
    cases he
    exact strideCalc_error he'
  · rename_i r hr
    simp only at he
    split at he
    · cases he
      exact .inr ⟨(strideCalc_ok hr).1, (strideCalc_ok hr).2.1, rfl⟩
    · cases he

/-- The six registers hold the six numbers unwrapped, since each fits 32 bits (R120). -/
theorem regs_toNat {w h : Word} {b : Half} {r : StrideResult} (hr : strideCalc w h b = .ok r) :
    r.regs.channels.toNat = r.channels ∧ r.regs.rowStride.toNat = r.row ∧ r.regs.aligned.toNat = r.aligned ∧
      r.regs.pad.toNat = r.pad ∧ r.regs.bufSize.toNat = r.buf ∧ r.regs.diskSize.toNat = r.disk := by
  have hk := strideCalc_ok hr
  have hb := b.isLt
  simp only [maxWord] at hk
  simp only [StrideResult.regs, BitVec.toNat_ofNat]
  refine ⟨?_, ?_, ?_, ?_, ?_, ?_⟩ <;> apply Nat.mod_eq_of_lt <;> omega

/-- StrideCalc in natural numbers, for dimensions that are not negative (R120). -/
theorem strideCalc_nat {w h : Word} {b : Half} {W H : Nat} (hw : w.toInt = W) (hh : h.toInt = H) :
    strideCalc w h b =
      if 4 * ((W * (b.toNat / 8) + 3) / 4) > maxWord ∨ H * (4 * ((W * (b.toNat / 8) + 3) / 4)) > maxWord then
        .error ⟨.arithRange, .range⟩
      else
        .ok {
          channels := b.toNat / 8
          row := W * (b.toNat / 8)
          aligned := 4 * ((W * (b.toNat / 8) + 3) / 4)
          pad := 4 * ((W * (b.toNat / 8) + 3) / 4) - W * (b.toNat / 8)
          buf := W * H * (b.toNat / 8)
          disk := H * (4 * ((W * (b.toNat / 8) + 3) / 4)) } := by
  unfold strideCalc
  rw [if_neg (by rw [sext32_eq_toInt, sext32_eq_toInt, hw, hh]; omega)]
  simp only [sext32_eq_toInt, hw, hh, Int.toNat_natCast]

end Sys2Proof.Machine
end

