-- ==== Sys2Proof/Laws/Exec.lean ====
section
/-! SUPPORT. What a command can do, said once: how each ends, and what all of them leave alone. -/

namespace Sys2Proof.Machine

/-! ### How a command ends -/

theorem State.finish_cases {s t : State} {r : Except CmdError State} (h : s.finish r = .next t) :
    (∃ u, r = .ok u ∧ t = u.complete) ∨ (∃ e, r = .error e ∧ t = s.raiseError e) := by
  cases r with
  | ok u => exact .inl ⟨u, rfl, by simpa [State.finish] using h.symm⟩
  | error e => exact .inr ⟨e, rfl, by simpa [State.finish] using h.symm⟩

/-- Every command ends in a next state. -/
theorem State.finish_next (s : State) (r : Except CmdError State) : ∃ t, s.finish r = .next t := by
  cases r with
  | ok u => exact ⟨_, rfl⟩
  | error e => exact ⟨_, rfl⟩

/-- The codes are told apart by their patterns (R150). -/
theorem ErrorCode.bits_inj {c d : ErrorCode} (h : c.bits = d.bits) : c = d := by
  cases c <;> cases d <;> first | rfl | (exact absurd h (by decide))

/-- A code is 0 exactly when it is OK (R150). -/
theorem ErrorCode.bits_eq_zero {c : ErrorCode} : c.bits = 0 ↔ c = .ok := by
  cases c <;> decide

/-! ### Each command -/

theorem execStride_cases {s t : State} (h : execStride s = .next t) :
    (∃ r, strideCalc s.ih.width s.ih.height s.ih.bitCount = .ok r ∧ t = ({ s with sc := r.regs } : State).complete) ∨
      (∃ e, strideCalc s.ih.width s.ih.height s.ih.bitCount = .error e ∧ t = s.raiseError e) := by
  unfold execStride at h
  rcases State.finish_cases h with ⟨u, hu, rfl⟩ | ⟨e, he, rfl⟩
  · split at hu
    · cases hu
    · rename_i r hr
      cases hu
      exact .inl ⟨r, hr, rfl⟩
  · split at he
    · rename_i e' he'
      cases he
      exact .inr ⟨e, he', rfl⟩
    · cases he

/-- What NORM makes of a state where it completes (R122). -/
def normState (s : State) (r : StrideResult) (fsize : Nat) : State :=
  { s with
    ih := { s.ih with size := BitVec.ofNat 32 (normInfoSize s.mode32) }
    fh := { s.fh with offBits := BitVec.ofNat 32 (normOffBits s.mode32), size := BitVec.ofNat 32 fsize }
    sc := r.regs }

theorem execNorm_cases {s t : State} (h : execNorm s = .next t) :
    (∃ r f, layoutCalc s.ih.width s.ih.height s.ih.bitCount s.mode32 = .ok (r, f) ∧ t = (normState s r f).complete) ∨
      (∃ e, layoutCalc s.ih.width s.ih.height s.ih.bitCount s.mode32 = .error e ∧ t = s.raiseError e) := by
  unfold execNorm at h
  rcases State.finish_cases h with ⟨u, hu, rfl⟩ | ⟨e, he, rfl⟩
  · split at hu
    · cases hu
    · rename_i r f hr
      cases hu
      exact .inl ⟨r, f, hr, rfl⟩
  · split at he
    · rename_i e' he'
      cases he
      exact .inr ⟨e, he', rfl⟩
    · cases he

/-- What SYNTH makes of a state where it completes (R123). -/
def synthState (a : Bool) (s : State) (r : StrideResult) (fsize : Nat) : State :=
  { s with
    fh := {
      type := bmpMagic
      size := BitVec.ofNat 32 fsize
      res1 := 0
      res2 := 0
      offBits := BitVec.ofNat 32 (normOffBits a) }
    ih := {
      size := BitVec.ofNat 32 (normInfoSize a)
      width := s.ih.width
      height := s.ih.height
      planes := 1
      bitCount := bppOfA a
      compression := if a then 3 else 0
      sizeImage := 0
      xppm := 0
      yppm := 0
      clrUsed := 0
      clrImportant := 0 }
    cm := canonicalMasks
    sc := r.regs }

theorem execSynth_cases {a : Bool} {s t : State} (h : execSynth a s = .next t) :
    (∃ r f, 0 < s.widthZ ∧ 0 < s.heightZ ∧ layoutCalc s.ih.width s.ih.height (bppOfA a) a = .ok (r, f) ∧
        t = (synthState a s r f).complete) ∨
      (s.widthZ ≤ 0 ∧ t = s.raiseError ⟨.invalidDimensions, .widthNonpos⟩) ∨
      (0 < s.widthZ ∧ s.heightZ ≤ 0 ∧ t = s.raiseError ⟨.invalidDimensions, .heightNonpos⟩) ∨
      (0 < s.widthZ ∧ 0 < s.heightZ ∧
        layoutCalc s.ih.width s.ih.height (bppOfA a) a = .error ⟨.arithRange, .range⟩ ∧
        t = s.raiseError ⟨.arithRange, .range⟩) := by
  unfold execSynth at h
  rcases State.finish_cases h with ⟨u, hu, rfl⟩ | ⟨e, he, rfl⟩
  · split at hu
    · cases hu
    · split at hu
      · cases hu
      · rename_i hw hh
        split at hu
        · cases hu
        · rename_i r f hr
          cases hu
          exact .inl ⟨r, f, by omega, by omega, hr, rfl⟩
  · split at he
    · rename_i hw
      cases he
      exact .inr (.inl ⟨hw, rfl⟩)
    · rename_i hw
      split at he
      · rename_i hh
        cases he
        exact .inr (.inr (.inl ⟨by omega, hh, rfl⟩))
      · rename_i hh
        split at he
        · rename_i e' he'
          cases he
          have hw' : 0 < s.widthZ := by omega
          have hh' : 0 < s.heightZ := by omega
          rcases layoutCalc_error he' with ⟨hn, -⟩ | ⟨-, -, rfl⟩
          · simp only [State.widthZ, State.heightZ] at hw' hh'
            omega
          · exact .inr (.inr (.inr ⟨hw', hh', he', rfl⟩))
        · cases he

theorem execValidate_cases {s t : State} (h : execValidate s = .next t) :
    (s.verdict = none ∧ t = s.complete) ∨ (∃ e, s.verdict = some e ∧ t = s.raiseError e) := by
  unfold execValidate at h
  rcases State.finish_cases h with ⟨u, hu, rfl⟩ | ⟨e, he, rfl⟩
  · split at hu
    · cases hu
    · rename_i hv
      cases hu
      exact .inl ⟨hv, rfl⟩
  · split at he
    · rename_i e' hv
      cases he
      exact .inr ⟨e, hv, rfl⟩
    · cases he

/-- A verdict is one of VALIDATE's errors (R140). -/
theorem State.verdict_mem {s : State} {e : CmdError} (h : s.verdict = some e) :
    e ∈ [⟨.unrecognizedFormat, .sig⟩, ⟨.unrecognizedFormat, .ihTooSmall⟩, ⟨.unsupportedFormat, .mask⟩,
      ⟨.unsupportedFormat, .csType⟩, ⟨.unsupportedOrientation, .negHeight⟩, ⟨.unsupportedFormat, .bpp⟩,
      (⟨.unsupportedFormat, .compression⟩ : CmdError)] := by
  unfold State.verdict at h
  repeat' split at h
  all_goals first
    | (cases h; done)
    | (cases h; simp)

/-! ### All commands at once -/

/-- The commands that cannot fail end in `complete()`, with the state they make. -/
def effectOf : Instr → State → Option State
  | .nop, s => some s
  | .decfh, s => some (decodeFields fhFields s)
  | .decih, s => some (decodeFields ihFields s)
  | .deccm, s => some (decodeFields cmFields s)
  | .encfh, s => some (encodeFields fhFields s)
  | .encih, s => some (encodeFields ihFields s)
  | .enccm, s => some (encodeFields cmFields s)
  | .stride, _ => none
  | .norm, _ => none
  | .synth _, _ => none
  | .validate, _ => none

theorem exec_eq_of_effectOf {i : Instr} {s u : State} (h : effectOf i s = some u) : exec i s = .next u.complete := by
  cases i <;> simp only [effectOf, Option.some.injEq, reduceCtorEq] at h <;> subst h <;> rfl

/-- A command ends with a report of R151, and leaves everything but STATUS alone where it fails (R9, R152). -/
theorem exec_cases {i : Instr} {s t : State} (h : exec i s = .next t) :
    (∃ u, t = u.complete ∧
        ((effectOf i s = some u) ∨
          (i = .stride ∧ ∃ r, strideCalc s.ih.width s.ih.height s.ih.bitCount = .ok r ∧ u = { s with sc := r.regs }) ∨
          (i = .norm ∧ ∃ r f, layoutCalc s.ih.width s.ih.height s.ih.bitCount s.mode32 = .ok (r, f) ∧
            u = normState s r f) ∨
          (∃ a, i = .synth a ∧ 0 < s.widthZ ∧ 0 < s.heightZ ∧ ∃ r f,
            layoutCalc s.ih.width s.ih.height (bppOfA a) a = .ok (r, f) ∧ u = synthState a s r f) ∨
          (i = .validate ∧ s.verdict = none ∧ u = s))) ∨
      (∃ e : CmdError, t = s.raiseError e ∧ (e.code, e.detail) ∈ legalReports ∧ e.code ≠ .ok) := by
  have hc : ∀ {e}, (e = (⟨.arithRange, .negDim⟩ : CmdError) ∨ e = ⟨.arithRange, .range⟩) →
      (e.code, e.detail) ∈ legalReports ∧ e.code ≠ .ok := by
    rintro e (rfl | rfl) <;> decide
  have easy : ∀ {j : Instr} {u : State}, effectOf j s = some u → exec j s = .next t → t = u.complete := by
    intro j u hj ht
    rw [exec_eq_of_effectOf hj] at ht
    exact (Host.Outcome.next.inj ht).symm
  cases i with
  | stride =>
    rcases execStride_cases h with ⟨r, hr, rfl⟩ | ⟨e, he, rfl⟩
    · exact .inl ⟨_, rfl, .inr (.inl ⟨rfl, r, hr, rfl⟩)⟩
    · exact .inr ⟨e, rfl, hc (by rcases strideCalc_error he with ⟨-, rfl⟩ | ⟨-, -, rfl⟩ <;> simp)⟩
  | norm =>
    rcases execNorm_cases h with ⟨r, f, hr, rfl⟩ | ⟨e, he, rfl⟩
    · exact .inl ⟨_, rfl, .inr (.inr (.inl ⟨rfl, r, f, hr, rfl⟩))⟩
    · exact .inr ⟨e, rfl, hc (by rcases layoutCalc_error he with ⟨-, rfl⟩ | ⟨-, -, rfl⟩ <;> simp)⟩
  | synth a =>
    rcases execSynth_cases h with ⟨r, f, hw, hh, hr, rfl⟩ | ⟨-, rfl⟩ | ⟨-, -, rfl⟩ | ⟨-, -, -, rfl⟩
    · exact .inl ⟨_, rfl, .inr (.inr (.inr (.inl ⟨a, rfl, hw, hh, r, f, hr, rfl⟩)))⟩
    · exact .inr ⟨_, rfl, by decide⟩
    · exact .inr ⟨_, rfl, by decide⟩
    · exact .inr ⟨_, rfl, by decide⟩
  | validate =>
    rcases execValidate_cases h with ⟨hv, rfl⟩ | ⟨e, hv, rfl⟩
    · exact .inl ⟨_, rfl, .inr (.inr (.inr (.inr ⟨rfl, hv, rfl⟩)))⟩
    · refine .inr ⟨e, rfl, ?_⟩
      have := State.verdict_mem hv
      simp only [List.mem_cons, List.not_mem_nil, or_false] at this
      rcases this with rfl | rfl | rfl | rfl | rfl | rfl | rfl <;> decide
  | nop => exact .inl ⟨s, easy rfl h, .inl rfl⟩
  | decfh => exact .inl ⟨_, easy rfl h, .inl rfl⟩
  | decih => exact .inl ⟨_, easy rfl h, .inl rfl⟩
  | deccm => exact .inl ⟨_, easy rfl h, .inl rfl⟩
  | encfh => exact .inl ⟨_, easy rfl h, .inl rfl⟩
  | encih => exact .inl ⟨_, easy rfl h, .inl rfl⟩
  | enccm => exact .inl ⟨_, easy rfl h, .inl rfl⟩

/-- What a command does to STATUS: CODE and DETAIL 0 and STICKY kept, or an error's report (R30). -/
theorem exec_status {i : Instr} {s t : State} (h : exec i s = .next t) :
    t.status = { s.status with code := 0, detail := 0 } ∨
      (∃ e : CmdError, t = s.raiseError e ∧ (e.code, e.detail) ∈ legalReports ∧ e.code ≠ .ok) := by
  rcases exec_cases h with ⟨u, rfl, hu⟩ | he
  · left
    rw [State.complete_status]
    suffices u.status = s.status by rw [this]
    rcases hu with hu | ⟨-, r, -, rfl⟩ | ⟨-, r, f, -, rfl⟩ | ⟨a, -, -, -, r, f, -, rfl⟩ | ⟨-, -, rfl⟩
    · cases i <;> simp only [effectOf, Option.some.injEq, reduceCtorEq] at hu <;> subst hu <;> simp
    all_goals rfl
  · exact .inr he

/-- A word's execution: an illegal word's report, or its command. -/
theorem executeWord_cases {w : Word} {s t : State} (h : executeWord w s = .next t) :
    (∃ e, decode w = .error e ∧ t = s.raiseError ⟨.illegalCommand, detailOf e⟩) ∨
      (∃ i, decode w = .ok i ∧ exec i s = .next t) := by
  unfold executeWord at h
  split at h
  · rename_i e he
    exact .inl ⟨e, he, by simpa using h.symm⟩
  · rename_i i hi
    exact .inr ⟨i, hi, h⟩

end Sys2Proof.Machine
end

