-- ==== Sys2Proof/Laws/Bus.lean ====
section
/-! SUPPORT. The address map and what one event of the host can do, said once. -/

namespace Sys2Proof.Machine

/-! ### The map -/

/-- Each register stands at its address, and nothing else does (R50). -/
theorem regAt_eq_some {a : Nat} {r : RegName} : regAt a = some r ↔ r.addr = a := by
  constructor
  · intro h
    have := List.find?_some h
    simpa using this
  · rintro rfl
    rcases r with r | r | _ | _ | _ | _
    · rcases r with _ | _ | _ | _ | _ | _ | _ | _ | _ | _ | _ | _ | _ | _ | _ | _ | _ | _ | _ | _ | _ | i
      all_goals first | rfl | (fin_cases i <;> rfl)
    · cases r <;> rfl
    all_goals rfl

/-- REGMAP's addresses are those of the table of R50. -/
theorem regAt_isSome {a : Nat} : (∃ r, regAt a = some r) ↔ inRegMap a := by
  simp only [regAt_eq_some]
  constructor
  · rintro ⟨r, rfl⟩
    rcases r with r | r | _ | _ | _ | _
    · rcases r with _ | _ | _ | _ | _ | _ | _ | _ | _ | _ | _ | _ | _ | _ | _ | _ | _ | _ | _ | _ | _ | i
      all_goals first | decide | (fin_cases i <;> decide)
    · cases r <;> decide
    all_goals decide
  · rintro ⟨h4, h⟩
    rcases h with h | h | h | h | h | h | h | h
    · obtain ⟨h1, h2⟩ := h
      interval_cases a <;> first | omega | skip
      exacts [⟨.field .fhType, rfl⟩, ⟨.field .fhSize, rfl⟩, ⟨.field .fhRes1, rfl⟩, ⟨.field .fhRes2, rfl⟩,
        ⟨.field .fhOffBits, rfl⟩]
    · obtain ⟨h1, h2⟩ := h
      interval_cases a <;> first | omega | skip
      exacts [⟨.field .ihSize, rfl⟩, ⟨.field .ihWidth, rfl⟩, ⟨.field .ihHeight, rfl⟩, ⟨.field .ihPlanes, rfl⟩,
        ⟨.field .ihBitCount, rfl⟩, ⟨.field .ihCompression, rfl⟩, ⟨.field .ihSizeImage, rfl⟩, ⟨.field .ihXppm, rfl⟩,
        ⟨.field .ihYppm, rfl⟩, ⟨.field .ihClrUsed, rfl⟩, ⟨.field .ihClrImportant, rfl⟩]
    · obtain ⟨h1, h2⟩ := h
      interval_cases a <;> first | omega | skip
      exacts [⟨.field .cmRed, rfl⟩, ⟨.field .cmGreen, rfl⟩, ⟨.field .cmBlue, rfl⟩, ⟨.field .cmAlpha, rfl⟩,
        ⟨.field .cmCsType, rfl⟩]
    · refine ⟨.field (.cmUnused ⟨(a - 0x180) / 4, by omega⟩), ?_⟩
      simp only [RegName.addr, FieldReg.addr]
      omega
    · obtain ⟨h1, h2⟩ := h
      interval_cases a <;> first | omega | skip
      exacts [⟨.sc .channels, rfl⟩, ⟨.sc .rowStride, rfl⟩, ⟨.sc .aligned, rfl⟩, ⟨.sc .pad, rfl⟩, ⟨.sc .bufSize, rfl⟩,
        ⟨.sc .diskSize, rfl⟩, ⟨.scContig, rfl⟩]
    · exact ⟨.cmd, h.symm⟩
    · exact ⟨.status, h.symm⟩
    · exact ⟨.flags, h.symm⟩

/-- The registers lie above HBUF and at multiples of 4 (R50). -/
theorem RegName.addr_inRegMap (r : RegName) : inRegMap r.addr := regAt_isSome.mp ⟨r, regAt_eq_some.mpr rfl⟩

/-- A register's address as a bus address. -/
theorem RegName.addr_lt (r : RegName) : r.addr < 2 ^ 12 := by
  have := r.addr_inRegMap
  simp only [inRegMap] at this
  omega

theorem AccessSize.bytes_pos (n : AccessSize) : 0 < n.bytes := by cases n <;> decide

/-- HBUF accesses (R52). -/
theorem target_hbuf {n : AccessSize} {a : Addr} (h : a.toNat + n.bytes ≤ Config.hbufSize) : target n a = .hbuf a.toNat :=
  if_pos (by have := n.bytes_pos; simp only [Config.hbufSize, Config.fhWireSize, Config.ihWireSize,
    Config.cmWireSize] at h; omega)

/-- Register accesses (R53). -/
theorem target_reg {a : Addr} {r : RegName} (h : r.addr = a.toNat) : target .word a = .reg r := by
  have hr := r.addr_inRegMap
  rw [h] at hr
  have hb : ¬ a.toNat + AccessSize.word.bytes - 1 ≤ 0x089 := by
    simp only [inRegMap, AccessSize.bytes] at hr ⊢
    omega
  rw [target, if_neg hb, if_pos ⟨rfl, hr.1⟩, regAt_eq_some.mpr h]

/-- What an access reaches, read backwards. -/
theorem target_cases (n : AccessSize) (a : Addr) :
    (a.toNat + n.bytes ≤ Config.hbufSize ∧ target n a = .hbuf a.toNat) ∨
      (n = .word ∧ ∃ r, r.addr = a.toNat ∧ target n a = .reg r) ∨
      (¬ a.toNat + n.bytes ≤ Config.hbufSize ∧ ¬ (n = .word ∧ inRegMap a.toNat) ∧ target n a = .nothing) := by
  by_cases h : a.toNat + n.bytes ≤ Config.hbufSize
  · exact .inl ⟨h, target_hbuf h⟩
  · by_cases hr : n = .word ∧ inRegMap a.toNat
    · obtain ⟨rfl, hr⟩ := hr
      obtain ⟨r, hr⟩ := regAt_isSome.mpr hr
      rw [regAt_eq_some] at hr
      exact .inr (.inl ⟨rfl, r, hr, target_reg hr⟩)
    · refine .inr (.inr ⟨h, hr, ?_⟩)
      have hb : ¬ a.toNat + n.bytes - 1 ≤ 0x089 := by
        simp only [Config.hbufSize, Config.fhWireSize, Config.ihWireSize, Config.cmWireSize] at h
        omega
      rw [target, if_neg hb]
      split
      · rename_i h4
        split
        · rename_i r hr'
          exact absurd ⟨h4.1, regAt_isSome.mp ⟨r, hr'⟩⟩ hr
        · rfl
      · rfl

/-! ### What one event does -/

/-- Everything an event of the host can do when it does not fault. -/
theorem hostEvent_cases {e : HostEvent} {s t : State} (h : hostEvent e s = .next t) :
    (∃ n a v, e = .read n a ∧ t = s.respond (.data v)) ∨
      (∃ n a v, e = .write n a v ∧ a.toNat + n.bytes ≤ Config.hbufSize ∧
        t = (s.memWrite a.toNat n.bytes v).respond .ack) ∨
      (∃ (a : Addr) (r : FieldReg) (v : Word), e = .write .word a v ∧ r.addr = a.toNat ∧
        t = (s.writeField r v).respond .ack) ∨
      (∃ v, e = .write .word 0x304 v ∧ t = (s.writeStatus v).respond .ack) ∨
      (∃ w, e = cmdWrite w ∧ executeWord w (s.respond .ack) = .next t) ∨
      (e = .reset ∧ t = s.pulseReset) := by
  cases e with
  | read n a =>
    simp only [hostEvent, hostRead] at h
    split at h
    · exact .inl ⟨n, a, _, rfl, by simpa using h.symm⟩
    · exact .inl ⟨n, a, _, rfl, by simpa using h.symm⟩
    · cases h
  | write n a v =>
    simp only [hostEvent, hostWrite] at h
    rcases target_cases n a with ⟨hb, ht⟩ | ⟨rfl, r, hr, ht⟩ | ⟨-, -, ht⟩
    · rw [ht] at h
      exact .inr (.inl ⟨n, a, v, rfl, hb, by simpa using h.symm⟩)
    · rw [ht] at h
      cases r with
      | field r => exact .inr (.inr (.inl ⟨a, r, v, rfl, hr, by simpa [State.regWrite] using h.symm⟩))
      | sc r => cases h
      | scContig => cases h
      | flags => cases h
      | status =>
        refine .inr (.inr (.inr (.inl ⟨v, ?_, by simpa [State.regWrite] using h.symm⟩)))
        rw [show a = 0x304 from BitVec.eq_of_toNat_eq hr.symm]
      | cmd =>
        refine .inr (.inr (.inr (.inr (.inl ⟨v, ?_, h⟩))))
        rw [show a = 0x300 from BitVec.eq_of_toNat_eq hr.symm]
        rfl
    · rw [ht] at h
      cases h
  | reset => exact .inr (.inr (.inr (.inr (.inr ⟨rfl, by simpa [hostEvent] using h.symm⟩))))

/-- A CMD write runs its word (R32). -/
theorem hostEvent_cmdWrite (w : Word) (s : State) : hostEvent (cmdWrite w) s = executeWord w (s.respond .ack) := rfl

/-- A step takes the host's oldest event (R10). -/
theorem step_eq {s : State} {e : HostEvent} {es : List HostEvent} (h : s.pending = e :: es) :
    step s = hostEvent e { s with pending := es } := by
  simp [step, hostStep, h]

theorem step_issue (s : State) (e : HostEvent) : step (s.issue e) = hostEvent e s := rfl

/-- Where a step comes from. -/
theorem step_cases {s t : State} (h : step s = .next t) :
    ∃ e es, s.pending = e :: es ∧ hostEvent e { s with pending := es } = .next t := by
  cases hp : s.pending with
  | nil => simp [step, hostStep, hp] at h
  | cons e es => exact ⟨e, es, rfl, by rw [← step_eq hp]; exact h⟩

end Sys2Proof.Machine
end

