-- ==== Sys2Proof/Laws/Flags.lean ====
section
/-! SUPPORT. The eight checks as propositions, the bits of FLAGS and STATUS as read, and VALIDATE's verdict over the
registers. -/

namespace Sys2Proof.Machine

/-! ### The checks (R31) -/

theorem State.sigOk_iff (s : State) : s.sigOk = true ↔ s.fh.type = 0x4D42 := decide_eq_true_iff
theorem State.sizeOk_iff (s : State) : s.sizeOk = true ↔ s.ih.bitCount ≠ 32 ∨ 124 ≤ s.ih.size.toNat := decide_eq_true_iff
theorem State.maskOk_iff (s : State) : s.maskOk = true ↔
    s.cm.red = 0x00FF0000 ∧ s.cm.green = 0x0000FF00 ∧ s.cm.blue = 0x000000FF ∧ s.cm.alpha = 0xFF000000 :=
  decide_eq_true_iff
theorem State.csOk_iff (s : State) : s.csOk = true ↔ s.cm.csType = 0x73524742 := decide_eq_true_iff
theorem State.orientOk_iff (s : State) : s.orientOk = true ↔ 0 ≤ s.ih.height.toInt := by
  rw [← sext32_eq_toInt]
  exact decide_eq_true_iff
theorem State.bppOk_iff (s : State) : s.bppOk = true ↔ s.ih.bitCount = 24 ∨ s.ih.bitCount = 32 := decide_eq_true_iff
theorem State.compOk_iff (s : State) : s.compOk = true ↔
    s.ih.compression = 0 ∨ (s.ih.compression = 3 ∧ s.ih.bitCount = 32) := decide_eq_true_iff
theorem State.mode32_iff (s : State) : s.mode32 = true ↔ s.ih.bitCount = 32 := decide_eq_true_iff

/-- VALIDATE's verdict over the registers (R140). -/
theorem State.verdict_eq (s : State) : s.verdict =
    if s.fh.type ≠ 0x4D42 then some ⟨.unrecognizedFormat, .sig⟩
    else if s.ih.bitCount = 32 ∧ s.ih.size.toNat < 124 then some ⟨.unrecognizedFormat, .ihTooSmall⟩
    else if s.ih.bitCount = 32 ∧ ¬ (s.cm.red = 0x00FF0000 ∧ s.cm.green = 0x0000FF00 ∧ s.cm.blue = 0x000000FF ∧
        s.cm.alpha = 0xFF000000) then some ⟨.unsupportedFormat, .mask⟩
    else if s.ih.bitCount = 32 ∧ s.cm.csType ≠ 0x73524742 then some ⟨.unsupportedFormat, .csType⟩
    else if s.ih.height.toInt < 0 then some ⟨.unsupportedOrientation, .negHeight⟩
    else if s.ih.bitCount ≠ 24 ∧ s.ih.bitCount ≠ 32 then some ⟨.unsupportedFormat, .bpp⟩
    else if ¬ (s.ih.compression = 0 ∨ (s.ih.compression = 3 ∧ s.ih.bitCount = 32)) then
      some ⟨.unsupportedFormat, .compression⟩
    else none := by
  have h1 := s.sigOk_iff
  have h2 := s.sizeOk_iff
  have h3 := s.maskOk_iff
  have h4 := s.csOk_iff
  have h5 := s.orientOk_iff
  have h6 := s.bppOk_iff
  have h7 := s.compOk_iff
  have h8 := s.mode32_iff
  have hn : ∀ {b : Bool} {p : Prop}, (b = true ↔ p) → ((!b) = true ↔ ¬ p) := by
    intro b p h
    cases b <;> simp_all
  simp only [State.verdict, Bool.and_eq_true, h8, hn h1, hn h2, hn h3, hn h4, hn h5, hn h6, hn h7, not_or, not_not, not_le]
  congr 2
  refine propext ⟨fun h => ⟨h.1, h.2.2⟩, fun h => ⟨h.1, h.1, h.2⟩⟩

/-! ### The words read -/

/-- A bit appended at the low end, read back. -/
theorem getLsbD_append_ofBool {w : Nat} (x : BitVec w) (b : Bool) (i : Nat) :
    (x ++ BitVec.ofBool b).getLsbD i = if i = 0 then b else x.getLsbD (i - 1) := by
  rw [BitVec.getLsbD_append]
  cases i with
  | zero => cases b <;> rfl
  | succ i => simp

theorem State.flagsWord_0 (s : State) : s.flagsWord.getLsbD 0 = s.sigOk := by
  rw [State.flagsWord]
  repeat' rw [getLsbD_append_ofBool]
  rfl
theorem State.flagsWord_1 (s : State) : s.flagsWord.getLsbD 1 = s.sizeOk := by
  rw [State.flagsWord]
  repeat' rw [getLsbD_append_ofBool]
  rfl
theorem State.flagsWord_2 (s : State) : s.flagsWord.getLsbD 2 = s.maskOk := by
  rw [State.flagsWord]
  repeat' rw [getLsbD_append_ofBool]
  rfl
theorem State.flagsWord_3 (s : State) : s.flagsWord.getLsbD 3 = s.csOk := by
  rw [State.flagsWord]
  repeat' rw [getLsbD_append_ofBool]
  rfl
theorem State.flagsWord_4 (s : State) : s.flagsWord.getLsbD 4 = s.orientOk := by
  rw [State.flagsWord]
  repeat' rw [getLsbD_append_ofBool]
  rfl
theorem State.flagsWord_5 (s : State) : s.flagsWord.getLsbD 5 = s.bppOk := by
  rw [State.flagsWord]
  repeat' rw [getLsbD_append_ofBool]
  rfl
theorem State.flagsWord_6 (s : State) : s.flagsWord.getLsbD 6 = s.compOk := by
  rw [State.flagsWord]
  repeat' rw [getLsbD_append_ofBool]
  rfl
theorem State.flagsWord_7 (s : State) : s.flagsWord.getLsbD 7 = s.mode32 := by
  rw [State.flagsWord]
  repeat' rw [getLsbD_append_ofBool]
  rfl

/-- FLAGS is the byte of its eight checks (R31). -/
theorem State.flagsWord_eq (s : State) (c0 c1 c2 c3 c4 c5 c6 c7 : Bool) (h0 : s.sigOk = c0) (h1 : s.sizeOk = c1)
    (h2 : s.maskOk = c2) (h3 : s.csOk = c3) (h4 : s.orientOk = c4) (h5 : s.bppOk = c5) (h6 : s.compOk = c6)
    (h7 : s.mode32 = c7) :
    s.flagsWord = 0#24 ++ BitVec.ofBool c7 ++ BitVec.ofBool c6 ++ BitVec.ofBool c5 ++ BitVec.ofBool c4 ++
      BitVec.ofBool c3 ++ BitVec.ofBool c2 ++ BitVec.ofBool c1 ++ BitVec.ofBool c0 := by
  simp only [State.flagsWord, h0, h1, h2, h3, h4, h5, h6, h7]

/-- The checks read the field registers only (R31). -/
theorem State.flagsWord_congr {s t : State} (hf : s.fh = t.fh) (hi : s.ih = t.ih) (hc : s.cm = t.cm) :
    s.flagsWord = t.flagsWord := by
  simp only [State.flagsWord, State.mode32, State.compOk, State.bppOk, State.orientOk, State.csOk, State.maskOk,
    State.sizeOk, State.sigOk, State.heightZ, hf, hi, hc]
  rfl

/-- STATUS's fields where R30 puts them. -/
theorem Status.word_code (t : Status) : t.word.extractLsb' 0 4 = t.code := by
  apply BitVec.eq_of_getLsbD_eq
  intro i hi
  rw [BitVec.getLsbD_extractLsb', Nat.zero_add, Status.word, BitVec.getLsbD_append, if_pos hi]
  simp [hi]

/-- See `Status.word_code`. -/
theorem Status.word_sticky (t : Status) : t.word.getLsbD 4 = t.sticky := by
  rw [Status.word, BitVec.getLsbD_append, if_neg (by omega), getLsbD_append_ofBool, if_pos (by omega)]

/-- See `Status.word_code`. -/
theorem Status.word_detail (t : Status) : t.word.extractLsb' 8 4 = t.detail := by
  apply BitVec.eq_of_getLsbD_eq
  intro i hi
  rw [BitVec.getLsbD_extractLsb', Status.word, BitVec.getLsbD_append, if_neg (by omega), getLsbD_append_ofBool,
    if_neg (by omega), BitVec.getLsbD_append, if_neg (by omega), BitVec.getLsbD_append, if_pos (by omega),
    show 8 + i - 4 - 1 - 3 = i from by omega]
  simp [hi]

/-- A 16-bit register's value survives its zero extension (R26). -/
@[simp] theorem setWidth_setWidth_half (v : Half) : (v.setWidth 32).setWidth 16 = v := by
  apply BitVec.eq_of_toNat_eq
  simp

end Sys2Proof.Machine
end

