-- ==== Sys2Proof/Laws/PerInstr.lean ====
section
/-! SUPPORT. Facts said of every command, one lemma per constructor: the fields of its encoded word (rules R70, R71). -/

namespace Sys2Proof.Laws.WordFields

/-- The word of a command holds its opcode, no reserved bit, and A only for SYNTH (R70). -/
def Statement (i : Instr) : Prop :=
  opField (encode i) = opcodeOf i ∧ rsvField (encode i) = 0 ∧ ∀ b, aField (encode i) = b → (b = true ↔ i = .synth true)

theorem nop : Statement .nop := by unfold Statement; decide
theorem decfh : Statement .decfh := by unfold Statement; decide
theorem decih : Statement .decih := by unfold Statement; decide
theorem deccm : Statement .deccm := by unfold Statement; decide
theorem encfh : Statement .encfh := by unfold Statement; decide
theorem encih : Statement .encih := by unfold Statement; decide
theorem enccm : Statement .enccm := by unfold Statement; decide
theorem stride : Statement .stride := by unfold Statement; decide
theorem norm : Statement .norm := by unfold Statement; decide
theorem synth (a : Bool) : Statement (.synth a) := by cases a <;> unfold Statement <;> decide
theorem validate : Statement .validate := by unfold Statement; decide

end Sys2Proof.Laws.WordFields
end

