-- ==== Sys2Proof/Machine/Sequences.lean ====
section
/-! DEFINITION. What a host does with BMPHC: the operations of the assembler and their expansions (rules R74, R75), and
the decode and synthesis sequences (R172, R173), with the host's decisions. They are host software around the machine:
each only issues accesses. -/

namespace Sys2Proof.Machine

/-- A line of a host program (R74, R75). `cmd` carries SYNTH's A bit: `cmd SYNTH a=1` is `.cmd (.synth true)`. -/
inductive AsmLine where
  | st (n : AccessSize) (a : Addr) (v : Word)
  | ld (n : AccessSize) (a : Addr)
  | cmd (i : Instr)
  | synth24
  | synth32
  | clrsticky
  | dechdr
  | enchdr24
  | enchdr32
  deriving DecidableEq, Repr

/-- A line's accesses (R74, R75). -/
def AsmLine.expand : AsmLine → List HostEvent
  | .st n a v => [.write n a v]
  | .ld n a => [.read n a]
  | .cmd i => [cmdWrite (encode i)]
  | .synth24 => [.write .word 0x300 0x00000022]
  | .synth32 => [.write .word 0x300 0x00000122]
  | .clrsticky => [.write .word 0x304 0x00000010]
  | .dechdr => [cmdWrite (encode .decfh), cmdWrite (encode .decih), cmdWrite (encode .deccm)]
  | .enchdr24 => [cmdWrite (encode .encfh), cmdWrite (encode .encih)]
  | .enchdr32 => [cmdWrite (encode .encfh), cmdWrite (encode .encih), cmdWrite (encode .enccm)]

/-- A number as a program writes it: hexadecimal (R74). -/
def hexText (n : Nat) : String := "0x" ++ String.ofList (Nat.toDigits 16 n)

/-- A command's mnemonic, as a `cmd` line writes it; SYNTH's A bit is set with `a=1` (R71, R74). -/
def mnemonicText : Instr → String
  | .nop => "NOP"
  | .decfh => "DECFH"
  | .decih => "DECIH"
  | .deccm => "DECCM"
  | .encfh => "ENCFH"
  | .encih => "ENCIH"
  | .enccm => "ENCCM"
  | .stride => "STRIDE"
  | .norm => "NORM"
  | .synth false => "SYNTH"
  | .synth true => "SYNTH a=1"
  | .validate => "VALIDATE"

/-- An access's width in bits, the suffix of `st` and `ld` (R74). -/
def bitsText : AccessSize → String
  | .byte => "8"
  | .half => "16"
  | .word => "32"

/-- A line in the assembler's syntax (R74, R75). -/
def AsmLine.text : AsmLine → String
  | .st n a v => "st" ++ bitsText n ++ " " ++ hexText a.toNat ++ ", " ++ hexText v.toNat
  | .ld n a => "ld" ++ bitsText n ++ " " ++ hexText a.toNat
  | .cmd i => "cmd " ++ mnemonicText i
  | .synth24 => "synth24"
  | .synth32 => "synth32"
  | .clrsticky => "clrsticky"
  | .dechdr => "dechdr"
  | .enchdr24 => "enchdr24"
  | .enchdr32 => "enchdr32"

/-- Issue accesses one after another; a bus error ends the run (R60, log 3). -/
def runEvents : List HostEvent → State → Host.Outcome State Fault Refusal
  | [], s => .next s
  | e :: es, s =>
    match hostEvent e s with
    | .next t => runEvents es t
    | .fault f => .fault f
    | .refused r => .refused r

/-- Run a host program's lines. -/
def runAsm (p : List AsmLine) (s : State) : Host.Outcome State Fault Refusal :=
  runEvents (p.flatMap AsmLine.expand) s

/-- What the host needs for the transfer of the pixel rows (R172 step 7, R126). -/
structure Transfer where
  offset    : Word   -- B, the decoded bfOffBits
  rowStride : Word
  aligned   : Word
  pad       : Word
  bufSize   : Word
  contig    : Word
  deriving DecidableEq, Repr

/-- How a sequence of the host's ends. -/
inductive HostResult where
  /-- The file is too short: the host's own failure, outside BMPHC (R172 step 1, R4). -/
  | ioError (s : State)
  /-- STATUS.CODE ≠ 0 (R172 steps 4 and 6). After SYNTH the rule names CODE = 5 only (R173 step 3); CODE = 7 ends here too
  by the model's choice (DESIGN CHOICE, log 12). -/
  | rejected (code : BitVec 4) (s : State)
  /-- The decode sequence's outcome (R172 step 7). -/
  | decoded (t : Transfer) (s : State)
  /-- The synthesis sequence's outcome: the buffer size to allocate and the header bytes copied out (R173). -/
  | synthesized (bufSize : Word) (header : List Byte) (s : State)
  /-- An access stopped. None of the accesses below does. -/
  | stopped
  deriving DecidableEq, Repr

/-- The host issues accesses and goes on. -/
def tell (es : List HostEvent) (s : State) (k : State → HostResult) : HostResult :=
  match runEvents es s with
  | .next t => k t
  | .fault _ => .stopped
  | .refused _ => .stopped

/-- The host reads a register and decides by its value. -/
def ask (a : Addr) (s : State) (k : Word → State → HostResult) : HostResult :=
  tell [.read .word a] s fun t =>
    match t.response with
    | .data v => k v t
    | .none => .stopped
    | .ack => .stopped

/-- The writes that put consecutive bytes of a file at the same offsets of HBUF (R172 steps 1 and 3). -/
def loadBytes : Nat → List Byte → List HostEvent
  | _, [] => []
  | off, b :: bs => .write .byte (BitVec.ofNat 12 off) (b.setWidth 32) :: loadBytes (off + 1) bs

/-- The code of a STATUS value read (R30). -/
def codeOf (v : Word) : BitVec 4 := v.extractLsb' 0 4

/-- R172 steps 4 to 7. -/
def judgeAndNormalize (s : State) : HostResult :=
  tell [cmdWrite (encode .validate)] s fun s => ask 0x304 s fun st s =>
    if codeOf st ≠ 0 then .rejected (codeOf st) s
    else ask 0x110 s fun b s =>
      tell [cmdWrite (encode .norm)] s fun s => ask 0x304 s fun st s =>
        if codeOf st ≠ 0 then .rejected (codeOf st) s
        else
          ask 0x204 s fun row s => ask 0x208 s fun aligned s => ask 0x20C s fun pad s =>
            ask 0x210 s fun buf s => ask 0x218 s fun contig s => .decoded ⟨b, row, aligned, pad, buf, contig⟩ s

/-- The decode sequence on a file's bytes (R172). That a file too short for its colour header ends in the host's IoError
is read from steps 1 and 3 together (DEDUCED, log 12). Whether the bytes that a short file does have reach HBUF before the
IoError the rule does not say: the model's host checks the length first and writes none of them, neither of 0..53 where
the file has fewer than 54 nor of 54..137 where it has fewer than 138. That it writes byte by byte, and the order of
step 7's reads, are its choices too (DESIGN CHOICE, log 12). -/
def decodeSequence (file : List Byte) (s : State) : HostResult :=
  if file.length < 54 then .ioError s
  else
    tell (loadBytes 0 (file.take 54) ++ [cmdWrite (encode .decfh), cmdWrite (encode .decih)]) s fun s =>
      ask 0x308 s fun flags s =>
        if flags.getLsbD 7 && flags.getLsbD 1 then
          if file.length < 138 then .ioError s
          else tell (loadBytes 54 ((file.drop 54).take 84) ++ [cmdWrite (encode .deccm)]) s judgeAndNormalize
        else judgeAndNormalize s

/-- The synthesis sequence (R173), steps 4 and 5 left to the host but for the size and the header bytes they use. Step 3
says what the host does at CODE = 5 (InvalidDimensions): the allocation fails. It says nothing of CODE = 7 (ArithRange),
SYNTH's other error (R123, R150); the model's host fails the allocation there too, with that code. It always goes on to
step 5, and its copy of the header image is not made of accesses (DESIGN CHOICE, log 12). -/
def synthSequence (width height : Word) (hasAlpha : Bool) (s : State) : HostResult :=
  tell [.write .word 0x124 width, .write .word 0x128 height, cmdWrite (encode (.synth hasAlpha))] s fun s =>
    ask 0x304 s fun st s =>
      if codeOf st ≠ 0 then .rejected (codeOf st) s
      else ask 0x210 s fun buf s =>
        tell ((if hasAlpha then AsmLine.enchdr32 else AsmLine.enchdr24).expand) s fun s =>
          .synthesized buf s.headerImage s

end Sys2Proof.Machine
end

