-- ==== Sys2Proof/Tests/Slice0.lean ====
section
/-! SUPPORT. Tests: the check of WellFormed, the words of 30_encoding.md, one step per command from the vectors V<n> of
95_test_vectors.md, and for each obligation with hypotheses a state and operands that meet them. Every expected value is
the vector's or the rule's named beside it. -/

namespace Sys2Proof.Tests

open Sys2Proof Sys2Proof.Machine

/-- The state a command leaves; none where it does not end in a next state. -/
def ran (i : Instr) (s : State) : Option State :=
  match exec i s with
  | .next t => some t
  | .fault _ => none
  | .refused _ => none

/-- The state a word written to CMD leaves. -/
def ranWord (w : Word) (s : State) : Option State :=
  match executeWord w s with
  | .next t => some t
  | .fault _ => none
  | .refused _ => none

/-- The state one event leaves. -/
def did (e : HostEvent) (s : State) : Option State :=
  match step (s.issue e) with
  | .next t => some t
  | .fault _ => none
  | .refused _ => none

/-- The reset state with three fields of the info header set. -/
def dims (w h : Word) (b : Half) : State :=
  { State.reset with ih := { InfoRegs.reset with width := w, height := h, bitCount := b } }

/-- The reset state with bytes written to HBUF. -/
def loaded (off : Nat) (bs : List Byte) : State := { State.reset with hbuf := Memory.store [] off bs }

/-- STATUS = 0x314. -/
def rejected : State := { State.reset with status := ⟨4, true, 3⟩ }

/-- The state after IH_WIDTH = 1, IH_HEIGHT = 1, `synth32`: "s32" of L2.3. -/
def s32 : State := (ran (.synth true) (dims 1 1 0)).getD .reset

/-- "s24" of L2.3. -/
def s24 : State := (ran (.synth false) (dims 1 1 0)).getD .reset

/-! ### WellFormed -/

/-- A byte write with bit 8 set is ill-formed (R52). -/
theorem test_wf_refuses_byte : (HostEvent.write .byte 0x001 0x100).wf = false := by decide

/-- A halfword write with bit 16 set is ill-formed (R52). -/
theorem test_wf_refuses_half : (HostEvent.write .half 0x001 0x10000).wf = false := by decide

theorem test_wf_accepts : (HostEvent.write .byte 0x001 0xFF).wf = true ∧
    (HostEvent.write .half 0x001 0xFFFF).wf = true ∧ (HostEvent.write .word 0x001 0xFFFFFFFF).wf = true := by decide

/-- Both values of the A bit are commands (R70). -/
theorem test_wf_synth : (Instr.synth false).wf = true ∧ (Instr.synth true).wf = true := by decide

/-! ### Words, bit by bit from the table of R71: RSV (23 bits), A, OP -/

theorem test_decode_nop : decode (0b00000000000000000000000#23 ++ 0b0#1 ++ 0b00000000#8) = .ok .nop := by rfl
theorem test_decode_decfh : decode (0b00000000000000000000000#23 ++ 0b0#1 ++ 0b00000001#8) = .ok .decfh := by rfl
theorem test_decode_decih : decode (0b00000000000000000000000#23 ++ 0b0#1 ++ 0b00000010#8) = .ok .decih := by rfl
theorem test_decode_deccm : decode (0b00000000000000000000000#23 ++ 0b0#1 ++ 0b00000011#8) = .ok .deccm := by rfl
theorem test_decode_encfh : decode (0b00000000000000000000000#23 ++ 0b0#1 ++ 0b00010001#8) = .ok .encfh := by rfl
theorem test_decode_encih : decode (0b00000000000000000000000#23 ++ 0b0#1 ++ 0b00010010#8) = .ok .encih := by rfl
theorem test_decode_enccm : decode (0b00000000000000000000000#23 ++ 0b0#1 ++ 0b00010011#8) = .ok .enccm := by rfl
theorem test_decode_stride : decode (0b00000000000000000000000#23 ++ 0b0#1 ++ 0b00100000#8) = .ok .stride := by rfl
theorem test_decode_norm : decode (0b00000000000000000000000#23 ++ 0b0#1 ++ 0b00100001#8) = .ok .norm := by rfl
theorem test_decode_synth24 :
    decode (0b00000000000000000000000#23 ++ 0b0#1 ++ 0b00100010#8) = .ok (.synth false) := by rfl
theorem test_decode_synth32 :
    decode (0b00000000000000000000000#23 ++ 0b1#1 ++ 0b00100010#8) = .ok (.synth true) := by rfl
theorem test_decode_validate : decode (0b00000000000000000000000#23 ++ 0b0#1 ++ 0b00110000#8) = .ok .validate := by rfl

/-- V70 to V75: undefined opcodes, the opcode before the reserved bits. -/
theorem test_decode_undef : decode 0x00000004 = .error .undefOp ∧ decode 0x000000FF = .error .undefOp ∧
    decode 0xFFFFFFFF = .error .undefOp ∧ decode 0x00000104 = .error .undefOp ∧ decode 0x00000010 = .error .undefOp ∧
    decode 0x00000031 = .error .undefOp := ⟨rfl, rfl, rfl, rfl, rfl, rfl⟩

/-- V76 to V80: reserved bits. -/
theorem test_decode_rsv : decode 0x00000100 = .error .rsvBits ∧ decode 0x00000121 = .error .rsvBits ∧
    decode 0x00000200 = .error .rsvBits ∧ decode 0x00000222 = .error .rsvBits ∧ decode 0x80000022 = .error .rsvBits :=
  ⟨rfl, rfl, rfl, rfl, rfl⟩

/-- The table's SYNTH word with A = 1 through the host's entry points: WIDTH_NONPOS from reset (V81). -/
theorem test_fetch_synth : decodeTableWord 32 0x122 = some (.synth true) ∧
    (match step (State.reset.withFetchWord 32 0x122) with
      | .next t => t.status.word = 0x815
      | .fault _ => False
      | .refused _ => False) := ⟨rfl, rfl⟩

/-! ### One command each -/

/-- V2, and V1's FH_SIZE and FH_OFFBITS. -/
theorem test_decfh : (ran .decfh (loaded 0
    [0x41, 0x4D, 0x46, 0x00, 0x00, 0x00, 0x34, 0x12, 0x78, 0x56, 0x36, 0x00, 0x00, 0x00])).map (·.fh) =
    some ⟨0x4D41, 70, 0x1234, 0x5678, 54⟩ := by decide

/-- V5: a negative height decodes. -/
theorem test_decih : (ran .decih (loaded 14 ([0x28, 0, 0, 0, 3, 0, 0, 0, 0xFE, 0xFF, 0xFF, 0xFF, 1, 0, 0x18, 0] ++
    List.replicate 24 0))).map (·.ih) =
    some { InfoRegs.reset with size := 40, width := 3, height := 0xFFFFFFFE, planes := 1, bitCount := 24 } := by decide

/-- V8, with the last reserved word's top byte set (R27, R82). -/
theorem test_deccm : (ran .deccm (loaded 54 ([0, 0, 0xFF, 0, 0, 0xFF, 0, 0, 0xFF, 0, 0, 0, 0, 0, 0, 0xFF, 0x42, 0x47,
    0x52, 0x73] ++ List.replicate 63 0 ++ [0x80]))).map (·.cm) =
    some { canonicalMasks with unused := canonicalMasks.unused.set 15 0x80000000 } := by decide

/-- P3 line 22: the fourteen bytes of the file header. -/
theorem test_encfh : (ran .encfh { State.reset with fh := ⟨0x4D42, 86, 0, 0, 54⟩ }).map (·.hbufBytes 0 14) =
    some [0x42, 0x4D, 0x56, 0, 0, 0, 0, 0, 0, 0, 0x36, 0, 0, 0] := by decide

/-- V10, biPlanes and biBitCount at their 16 bits. -/
theorem test_encih : (ran .encih s32).map (·.hbufBytes 14 20) =
    some [0x7C, 0, 0, 0, 1, 0, 0, 0, 1, 0, 0, 0, 1, 0, 0x20, 0, 3, 0, 0, 0] := by decide

/-- V9. -/
theorem test_enccm : (ran .enccm s24).map (·.hbufBytes 54 20) =
    some [0, 0, 0xFF, 0, 0, 0xFF, 0, 0, 0xFF, 0, 0, 0, 0, 0, 0, 0xFF, 0x42, 0x47, 0x52, 0x73] := by decide

/-- V19 and V24: padding, and a depth of 8. -/
theorem test_stride : (ran .stride (dims 5 2 24)).map (·.sc) = some ⟨3, 15, 16, 1, 30, 32⟩ ∧
    (ran .stride (dims 5 2 8)).map (·.sc) = some ⟨1, 5, 8, 3, 10, 16⟩ := by decide

/-- V27a, V27i and V27e: the last stride that fits, one that does not, and a negative height. -/
theorem test_stride_range :
    (ran .stride (dims 0x55555554 1 24)).map (·.sc.diskSize) = some 0xFFFFFFFC ∧
    (ran .stride (dims 1 0x40000000 32)).map (·.status.word) = some 0xB17 ∧
    (ran .stride (dims 5 0xFFFFFFFE 24)).map (·.status.word) = some 0xA17 := by decide

/-- V24n: a depth of 8 gets the 24-bit sizes. -/
theorem test_norm : (ran .norm (dims 5 2 8)).map (fun t => (t.ih.size, t.fh.offBits, t.fh.size)) =
    some (40, 54, 70) := by decide

/-- V27an: STRIDE succeeds on these fields and NORM does not, and leaves SC alone. -/
theorem test_norm_range : (ran .norm (dims 0x55555554 1 24)).map (fun t => (t.status.word, t.sc)) =
    some (0xB17, StrideRegs.reset) := by decide

/-- V28 and V30. -/
theorem test_synth :
    (ran (.synth false) (dims 2 2 0)).map (fun t => (t.fh.size, t.sc, t.flagsWord)) =
      some (70, ⟨3, 6, 8, 2, 12, 16⟩, 0x7F) ∧
    (ran (.synth true) (dims 2 3 0)).map (fun t => (t.fh.size, t.sc, t.flagsWord)) =
      some (162, ⟨4, 8, 8, 0, 24, 24⟩, 0xFF) := by decide

/-- V36, V38 and V39a: width first, height, then the range. -/
theorem test_synth_errors : (ran (.synth false) (dims 0 0 0)).map (·.status.word) = some 0x815 ∧
    (ran (.synth true) (dims 3 0xFFFFFFFF 0)).map (·.status.word) = some 0x915 ∧
    (ran (.synth true) (dims 0x3FFFFFFF 1 0)).map (·.status.word) = some 0xB17 := by decide

/-- V46, V51 and V54: the size, the masks before the orientation, the orientation before the depth. -/
theorem test_validate : (ran .validate { s32 with ih.size := 123 }).map (·.status.word) = some 0x212 ∧
    (ran .validate { s32 with ih.height := 0xFFFFFFFE, cm.alpha := 0 }).map (·.status.word) = some 0x314 ∧
    (ran .validate { s24 with ih.height := 0x80000000, ih.bitCount := 8 }).map (·.status.word) = some 0x513 := by
  decide

/-- V49, V55 and V56: no colour check at 24 bits; compression 3 needs 32 bits; compression 0 does at 32. -/
theorem test_validate_modes : (ran .validate { s24 with cm.alpha := 0 }).map (·.status.word) = some 0 ∧
    (ran .validate { s24 with ih.compression := 3 }).map (·.status.word) = some 0x714 ∧
    (ran .validate { s32 with ih.compression := 0 }).map (·.status.word) = some 0 := by decide

/-- V65. -/
theorem test_nop : (ran .nop rejected).map (·.status.word) = some 0x010 := by decide

/-! ### Accesses -/

/-- V85: little-endian bytes, unaligned and of mixed widths. -/
theorem test_bus_mixed : ((did (.write .word 0x000 0x12345678) .reset).bind (did (.read .half 0x001))).map (·.response) =
      some (.data 0x3456) ∧
    ((did (.write .word 0x000 0x12345678) .reset).bind (did (.read .byte 0x003))).map (·.response) =
      some (.data 0x12) := by decide

/-- V87 to V91, V93, V95 to V97, V99, V100: bus errors. -/
theorem test_bus_errors : did (.read .word 0x088) .reset = none ∧ did (.read .byte 0x08A) .reset = none ∧
    did (.read .half 0x104) .reset = none ∧ did (.read .word 0x102) .reset = none ∧
    did (.read .word 0x114) .reset = none ∧ did (.read .word 0x1C0) .reset = none ∧
    did (.read .word 0x21C) .reset = none ∧ did (.write .word 0x200 5) .reset = none ∧
    did (.write .word 0x308 0) .reset = none ∧ did (.write .word 0x30C 0) .reset = none ∧
    did (.write .half 0x300 0x0022) .reset = none := by decide

/-- V13, V14: 16-bit registers. -/
theorem test_bus_narrow :
    ((did (.write .word 0x12C 0x00010001) .reset).bind (did (.read .word 0x12C))).map (·.response) = some (.data 1) ∧
    ((did (.write .word 0x100 0xABCD4D42) .reset).bind (did (.read .word 0x308))).map (·.response) =
      some (.data 0x53) := by decide

/-- V66, V67. -/
theorem test_bus_status : (did (.write .word 0x304 0x10) rejected).map (·.status.word) = some 0x304 ∧
    (did (.write .word 0x304 0xFFFFFFEF) rejected).map (·.status.word) = some 0x314 := by decide

/-- R34: FLAGS reads 0x52 and SC_CONTIG 1 after reset. -/
theorem test_reset_reads : (did (.read .word 0x308) .reset).map (·.response) = some (.data 0x52) ∧
    (did (.read .word 0x218) .reset).map (·.response) = some (.data 1) := by decide

/-! ### Host sequences -/

/-- P1 through R173: the buffer size of a 24-bit 3×2 image and its 54 header bytes. -/
theorem test_synth_sequence : (match synthSequence 3 2 false .reset with
    | .synthesized size header _ => some (size, header)
    | _ => none) = some (18, [0x42, 0x4D, 0x4E, 0, 0, 0, 0, 0, 0, 0, 0x36, 0, 0, 0, 0x28, 0, 0, 0, 3, 0, 0, 0, 2, 0, 0, 0,
      1, 0, 0x18, 0, 0, 0, 0, 0] ++ List.replicate 20 0) := by decide

/-- V39c through R173: at CODE = 7 the model's host fails the allocation (log 12, the model's choice). -/
theorem test_synth_sequence_range : (match synthSequence 0x55555554 1 false .reset with
    | .rejected code _ => some code
    | _ => none) = some 7 := by decide

/-- R74's syntax, on P4's first line and on the A bit. -/
theorem test_asm_text : (AsmLine.st .byte 0x001 0x41).text = "st8 0x1, 0x41" ∧
    (AsmLine.cmd (.synth true)).text = "cmd SYNTH a=1" := by decide

/-- R172 step 1: 53 bytes are too few. -/
theorem test_decode_sequence_short : (match decodeSequence (List.replicate 53 0) .reset with
    | .ioError _ => true
    | _ => false) = true := by decide

/-! ### A state and operands that meet the hypotheses of each obligation

Named witness_<obligation>_<clause>. An obligation with no hypothesis beyond "for every state" has none here. -/

/-- The smallest multiple of 4 at or above a row (R120). -/
theorem leastMultiple (row k : Nat) (h : row ≤ 4 * k) (h' : 4 * k < row + 4) : LeastMultipleOf4 row (4 * k) := by
  refine ⟨⟨k, rfl⟩, h, ?_⟩
  rintro B ⟨j, rfl⟩ hB
  omega

theorem witness_ExecuteDecodesInOrder_undef :
    (0x00000104 : Word).extractLsb' 0 8 ∉
      ([0x00, 0x01, 0x02, 0x03, 0x11, 0x12, 0x13, 0x20, 0x21, 0x22, 0x30] : List Byte) := by decide

theorem witness_ExecuteDecodesInOrder_rsv :
    (0x80000022 : Word).extractLsb' 0 8 ∈
      ([0x00, 0x01, 0x02, 0x03, 0x11, 0x12, 0x13, 0x20, 0x21, 0x22, 0x30] : List Byte) ∧
    (0x80000022 : Word).extractLsb' 9 23 ≠ 0 ∧
    (0x00000130 : Word).extractLsb' 0 8 ∈
      ([0x00, 0x01, 0x02, 0x03, 0x11, 0x12, 0x13, 0x20, 0x21, 0x22, 0x30] : List Byte) ∧
    (0x00000130 : Word).getLsbD 8 = true ∧ (0x00000130 : Word).extractLsb' 0 8 ≠ 0x22 := by decide

theorem witness_ExecuteDecodesInOrder_legal :
    (0x00000122 : Word).extractLsb' 0 8 ∈
      ([0x00, 0x01, 0x02, 0x03, 0x11, 0x12, 0x13, 0x20, 0x21, 0x22, 0x30] : List Byte) ∧
    (0x00000122 : Word).extractLsb' 9 23 = 0 ∧
    ((0x00000122 : Word).getLsbD 8 = true → (0x00000122 : Word).extractLsb' 0 8 = 0x22) := by decide

theorem witness_StepRunsDecodedCommand :
    (State.reset.issue (.write .word 0x300 0x122)).pending = .write .word 0x300 0x122 :: [] ∧
    decode 0x122 = .ok (.synth true) := ⟨rfl, rfl⟩

theorem witness_DecfhLoadsFileHeader :
    (∃ t, exec .decfh State.reset = .next t) ∧
    (loaded 0 [0x42, 0x4D, 0x46, 0x00, 0x00, 0x00, 0x00, 0x00, 0x00, 0x00, 0x36, 0x00, 0x00, 0x00]).hbufBytes 0 14 =
      [0x42, 0x4D, 0x46, 0x00, 0x00, 0x00, 0x00, 0x00, 0x00, 0x00, 0x36, 0x00, 0x00, 0x00] := ⟨⟨_, rfl⟩, by decide⟩

theorem witness_DecihLoadsInfoHeader_negative :
    (loaded 22 [0xFE, 0xFF, 0xFF, 0xFF]).hbufBytes 22 4 = [0xFE, 0xFF, 0xFF, 0xFF] ∧
    ∃ t, exec .decih (loaded 22 [0xFE, 0xFF, 0xFF, 0xFF]) = .next t := ⟨by decide, _, rfl⟩

theorem witness_DecihLoadsInfoHeader_example :
    let s := loaded 14 ([0x28, 0, 0, 0, 3, 0, 0, 0, 2, 0, 0, 0, 1, 0, 0x18, 0] ++ List.replicate 24 0)
    s.hbufBytes 14 16 = [0x28, 0, 0, 0, 3, 0, 0, 0, 2, 0, 0, 0, 1, 0, 0x18, 0] ∧
    s.hbufBytes 30 24 = List.replicate 24 0 := by decide

theorem witness_DeccmLoadsColorMaskHeader :
    let s := loaded 54 [0, 0, 0xFF, 0, 0, 0xFF, 0, 0, 0xFF, 0, 0, 0, 0, 0, 0, 0xFF, 0x42, 0x47, 0x52, 0x73]
    s.hbufBytes 54 20 = [0, 0, 0xFF, 0, 0, 0xFF, 0, 0, 0xFF, 0, 0, 0, 0, 0, 0, 0xFF, 0x42, 0x47, 0x52, 0x73] ∧
    ∃ t, exec .deccm s = .next t := ⟨by decide, _, rfl⟩

theorem witness_EncfhStoresFileHeader :
    let s := { State.reset with fh := ⟨0x4D42, 142, 0, 0, 138⟩ }
    s.fh = { type := 0x4D42, size := 142, res1 := 0, res2 := 0, offBits := 138 } ∧ ∃ t, exec .encfh s = .next t :=
  ⟨rfl, _, rfl⟩

theorem witness_EncihStoresInfoHeader_negative :
    (dims 0 0xFFFFFFFF 0).ih.height = 0xFFFFFFFF ∧ ∃ t, exec .encih (dims 0 0xFFFFFFFF 0) = .next t := ⟨rfl, _, rfl⟩

theorem witness_EncihStoresInfoHeader_example :
    s32.ih = { InfoRegs.reset with size := 124, width := 1, height := 1, planes := 1, bitCount := 32, compression := 3 } ∧
    ∃ t, exec .encih s32 = .next t := ⟨by decide, _, rfl⟩

theorem witness_EnccmStoresColorMaskHeader :
    s24.cm = canonicalMasks ∧ ∃ t, exec .enccm s24 = .next t := ⟨by decide, _, rfl⟩

theorem witness_CodecRoundTrip : (Instr.decfh, Instr.encfh, 0, 14) ∈
    [(Instr.decfh, Instr.encfh, 0, 14), (.decih, .encih, 14, 54), (.deccm, .enccm, 54, 138)] := by decide

/-- V27d, V27e. -/
theorem witness_StrideComputesRowLayout_negative :
    (dims 0xFFFFFFFF 2 24).ih.width.toInt < 0 ∧ (dims 5 0xFFFFFFFE 24).ih.height.toInt < 0 := by decide

/-- V27f (the aligned stride) and V27i (the disk size): 2^32 each. -/
theorem witness_StrideComputesRowLayout_range :
    ((dims 0x55555555 1 24).ih.width.toInt = (0x55555555 : Nat) ∧ (dims 0x55555555 1 24).ih.height.toInt = (1 : Nat) ∧
      LeastMultipleOf4 (0x55555555 * ((dims 0x55555555 1 24).ih.bitCount.toNat / 8)) (4 * 2 ^ 30) ∧
      4 * 2 ^ 30 > 0xFFFFFFFF) ∧
    ((dims 1 0x40000000 32).ih.width.toInt = (1 : Nat) ∧ (dims 1 0x40000000 32).ih.height.toInt = (0x40000000 : Nat) ∧
      LeastMultipleOf4 (1 * ((dims 1 0x40000000 32).ih.bitCount.toNat / 8)) (4 * 1) ∧
      0x40000000 * (4 * 1) > 0xFFFFFFFF) :=
  ⟨⟨by decide, by decide, leastMultiple _ _ (by decide) (by decide), by decide⟩,
    by decide, by decide, leastMultiple _ _ (by decide) (by decide), by decide⟩

/-- V27a: the largest aligned stride and disk size, and V19. -/
theorem witness_StrideComputesRowLayout_fits :
    ((dims 0x55555554 1 24).ih.width.toInt = (0x55555554 : Nat) ∧ (dims 0x55555554 1 24).ih.height.toInt = (1 : Nat) ∧
      LeastMultipleOf4 (0x55555554 * ((dims 0x55555554 1 24).ih.bitCount.toNat / 8)) (4 * 0x3FFFFFFF) ∧
      4 * 0x3FFFFFFF ≤ 0xFFFFFFFF ∧ 1 * (4 * 0x3FFFFFFF) ≤ 0xFFFFFFFF) ∧
    ((dims 5 2 24).ih.width = 5 ∧ (dims 5 2 24).ih.height = 2 ∧ (dims 5 2 24).ih.bitCount = 24 ∧
      ∃ t, exec .stride (dims 5 2 24) = .next t) :=
  ⟨⟨by decide, by decide, leastMultiple _ _ (by decide) (by decide), by decide, by decide⟩, rfl, rfl, rfl, _, rfl⟩

theorem witness_NormRecomputesDerivedFields_negative :
    (dims 0xFFFFFFFF 2 24).ih.width.toInt < 0 ∧ (dims 5 0xFFFFFFFE 24).ih.height.toInt < 0 := by decide

/-- V27an: the range only because of the 54 header bytes. -/
theorem witness_NormRecomputesDerivedFields_range :
    let s := dims 0x55555554 1 24
    s.ih.width.toInt = (0x55555554 : Nat) ∧ s.ih.height.toInt = (1 : Nat) ∧
      LeastMultipleOf4 (0x55555554 * (s.ih.bitCount.toNat / 8)) (4 * 0x3FFFFFFF) ∧
      (s.ih.bitCount = 32 → 54 = 138 ∧ 40 = 124) ∧ (s.ih.bitCount ≠ 32 → 54 = 54 ∧ 40 = 40) ∧
      54 + 1 * (4 * 0x3FFFFFFF) > 0xFFFFFFFF :=
  ⟨by decide, by decide, leastMultiple _ _ (by decide) (by decide), by decide, by decide, by decide⟩

/-- V19n and V21n. -/
theorem witness_NormRecomputesDerivedFields_fits :
    (let s := dims 5 2 24;
      s.ih.width.toInt = (5 : Nat) ∧ s.ih.height.toInt = (2 : Nat) ∧
      LeastMultipleOf4 (5 * (s.ih.bitCount.toNat / 8)) (4 * 4) ∧
      (s.ih.bitCount = 32 → 54 = 138 ∧ 40 = 124) ∧ (s.ih.bitCount ≠ 32 → 54 = 54 ∧ 40 = 40) ∧
      4 * 4 ≤ 0xFFFFFFFF ∧ 54 + 2 * (4 * 4) ≤ 0xFFFFFFFF) ∧
    (let s := dims 3 2 32;
      s.ih.width.toInt = (3 : Nat) ∧ s.ih.height.toInt = (2 : Nat) ∧
      LeastMultipleOf4 (3 * (s.ih.bitCount.toNat / 8)) (4 * 3) ∧
      (s.ih.bitCount = 32 → 138 = 138 ∧ 124 = 124) ∧ (s.ih.bitCount ≠ 32 → 138 = 54 ∧ 124 = 40) ∧
      4 * 3 ≤ 0xFFFFFFFF ∧ 138 + 2 * (4 * 3) ≤ 0xFFFFFFFF) :=
  ⟨⟨by decide, by decide, leastMultiple _ _ (by decide) (by decide), by decide, by decide, by decide, by decide⟩,
    by decide, by decide, leastMultiple _ _ (by decide) (by decide), by decide, by decide, by decide, by decide⟩

/-- V34, V35; V37, V38. -/
theorem witness_SynthWritesBlankHeaders_nonpositive :
    (dims 0 5 0).ih.width.toInt ≤ 0 ∧ (dims 0xFFFFFFFF 5 0).ih.width.toInt ≤ 0 ∧
    (0 < (dims 3 0 0).ih.width.toInt ∧ (dims 3 0 0).ih.height.toInt ≤ 0) ∧
    (0 < (dims 3 0xFFFFFFFF 0).ih.width.toInt ∧ (dims 3 0xFFFFFFFF 0).ih.height.toInt ≤ 0) := by decide

/-- V39c (24 bits) and V39a (32 bits): the range only because of the header bytes. -/
theorem witness_SynthWritesBlankHeaders_range :
    ((dims 0x55555554 1 0).ih.width.toInt = (0x55555554 : Nat) ∧ (dims 0x55555554 1 0).ih.height.toInt = (1 : Nat) ∧
      LeastMultipleOf4 (0x55555554 * 3) (4 * 0x3FFFFFFF) ∧ 54 + 1 * (4 * 0x3FFFFFFF) > 0xFFFFFFFF) ∧
    ((dims 0x3FFFFFFF 1 0).ih.width.toInt = (0x3FFFFFFF : Nat) ∧ (dims 0x3FFFFFFF 1 0).ih.height.toInt = (1 : Nat) ∧
      LeastMultipleOf4 (0x3FFFFFFF * 4) (4 * 0x3FFFFFFF) ∧ 138 + 1 * (4 * 0x3FFFFFFF) > 0xFFFFFFFF) :=
  ⟨⟨by decide, by decide, leastMultiple _ _ (by decide) (by decide), by decide⟩,
    by decide, by decide, leastMultiple _ _ (by decide) (by decide), by decide⟩

/-- V31 and V32. -/
theorem witness_SynthWritesBlankHeaders_fits :
    (dims 1 1 0).ih.width.toInt = (1 : Nat) ∧ (dims 1 1 0).ih.height.toInt = (1 : Nat) ∧ 0 < 1 ∧
    LeastMultipleOf4 (1 * 3) (4 * 1) ∧ LeastMultipleOf4 (1 * 4) (4 * 1) ∧ 4 * 1 ≤ 0xFFFFFFFF ∧
    54 + 1 * (4 * 1) ≤ 0xFFFFFFFF ∧ 138 + 1 * (4 * 1) ≤ 0xFFFFFFFF :=
  ⟨by decide, by decide, by decide, leastMultiple _ _ (by decide) (by decide), leastMultiple _ _ (by decide) (by decide),
    by decide, by decide, by decide⟩

/-- V19, V21n, V28: one success of each command, in both modes. -/
theorem witness_PaddingLaws :
    (∃ t, exec .stride (dims 5 2 24) = .next t ∧ t.status.code = 0 ∧ t.ih.bitCount = 24) ∧
    (∃ t, exec .norm (dims 3 2 32) = .next t ∧ t.status.code = 0 ∧ t.ih.bitCount = 32) ∧
    (∃ t, exec (.synth false) (dims 2 2 0) = .next t ∧ t.status.code = 0) :=
  ⟨⟨_, rfl, by decide, by decide⟩, ⟨_, rfl, by decide, by decide⟩, _, rfl, by decide⟩

theorem witness_FileSizeLaw :
    (∃ t, exec .norm (dims 5 2 24) = .next t ∧ t.status.code = 0) ∧
    (∃ t, exec (.synth true) (dims 2 3 0) = .next t ∧ t.status.code = 0) := ⟨⟨_, rfl, by decide⟩, _, rfl, by decide⟩

/-- V28's stride results, two rows of six bytes. -/
theorem witness_RowLayoutRoundTrip :
    (⟨3, 6, 8, 2, 12, 16⟩ : StrideRegs).consistent ∧
    (List.replicate 12 (0xAB : Byte)).length = 2 * (⟨3, 6, 8, 2, 12, 16⟩ : StrideRegs).rowStride.toNat :=
  ⟨⟨2, 2, by decide, by decide, by decide, by decide, by decide, by decide, by decide, by decide, by decide⟩, by decide⟩

theorem witness_EmittedFileHasFileSize :
    ∃ t, exec (.synth false) (dims 2 2 0) = .next t ∧ t.status.code = 0 ∧
      (List.replicate 12 (0xAB : Byte)).length = t.sc.bufSize.toNat := ⟨_, rfl, by decide, by decide⟩

theorem witness_ValidateReportsFirstFailure :
    ∃ t, exec (.synth true) (dims 1 1 0) = .next t ∧ t.status.code = 0 := ⟨_, rfl, by decide⟩

theorem witness_NopClearsReport :
    (0x80000000 : Word).extractLsb' 0 8 = 0x00 ∧ (0x80000000 : Word) ≠ 0 ∧
    (0x00000100 : Word).extractLsb' 0 8 = 0x00 ∧ (0x00000100 : Word) ≠ 0 ∧
    rejected.status.word = 0x00000314 ∧ ∃ t, exec .nop rejected = .next t :=
  ⟨by decide, by decide, by decide, by decide, by decide, _, rfl⟩

/-- P2 and E11: a header the decoder accepts and one that it does not. -/
theorem witness_ValidateAgreesWithDocDecoder :
    docHeaderError (loaded 0 ([0x42, 0x4D, 0x46, 0, 0, 0, 0, 0, 0, 0, 0x36, 0, 0, 0, 0x28, 0, 0, 0, 3, 0, 0, 0, 2, 0, 0, 0,
      1, 0, 0x18, 0] ++ List.replicate 108 0)).hbufByte = none ∧
    docHeaderError (loaded 0 (List.replicate 138 0)).hbufByte = some .unrecognizedFormat := by decide

theorem witness_RegisterMapIsTheTable :
    (RegName.field (.cmUnused 15)).addr = RegName.addr (.field (.cmUnused 15)) ∧ inRegMap 0x1BC ∧ ¬ inRegMap 0x1C0 := by
  decide

theorem witness_FieldRegisterTruncates : FieldReg.ihSize ≠ .fhType := by decide

theorem witness_ResultRegistersReadOnly :
    (0x200 ≤ (0x200 : Addr).toNat ∧ (0x200 : Addr).toNat ≤ 0x218) ∧
    (0x200 ≤ (0x218 : Addr).toNat ∧ (0x218 : Addr).toNat ≤ 0x218) := by decide

theorem witness_StatusReadsAndClears :
    (∃ t, executeWord 0x00000030 State.reset = .next t ∧ t.status.code ≠ 0) ∧
    (∃ t, executeWord 0x00000030 s32 = .next t ∧ t.status.code = 0) := ⟨⟨_, rfl, by decide⟩, _, rfl, by decide⟩

theorem witness_SignedPatternsRoundTrip :
    (-2 ^ 31 : Int) ≤ -2 ^ 31 ∧ (-2 ^ 31 : Int) < 2 ^ 31 ∧ (-2 ^ 31 : Int) ≤ 2 ^ 31 - 1 ∧ (2 ^ 31 - 1 : Int) < 2 ^ 31 := by
  decide

/-- The edges of HBUF, of the register map and of the read-only registers. -/
theorem witness_BusErrorsExactly :
    (HostEvent.read .half 0x088).admitted ∧ ¬ (HostEvent.read .word 0x088).admitted ∧
    (HostEvent.read .word 0x1BC).admitted ∧ ¬ (HostEvent.read .word 0x1C0).admitted ∧
    (HostEvent.read .word 0x308).admitted ∧ ¬ (HostEvent.write .word 0x308 0).admitted ∧
    (HostEvent.write .word 0x300 0).admitted ∧ ¬ (HostEvent.write .half 0x300 0x22).admitted ∧
    HostEvent.reset.admitted := by
  refine ⟨.inl (by decide), ?_, .inr (by decide), ?_, .inr (by decide), ?_, .inr (by decide), ?_, trivial⟩ <;>
    simp only [HostEvent.admitted] <;> decide

/-- The last byte, the last halfword and the last word of HBUF, and the accesses one byte past them. -/
theorem witness_HbufAccesses :
    (0x089 : Addr).toNat + 1 ≤ 138 ∧ (0x088 : Addr).toNat + 2 ≤ 138 ∧ (0x086 : Addr).toNat + 4 ≤ 138 ∧
    (0x086 : Addr).toNat + AccessSize.word.bytes ≤ 138 ∧ 3 < AccessSize.word.bytes ∧
    ((0x089 : Addr).toNat ≤ 0x089 ∧ 138 < (0x089 : Addr).toNat + AccessSize.half.bytes) ∧
    ((0x087 : Addr).toNat ≤ 0x089 ∧ 138 < (0x087 : Addr).toNat + AccessSize.word.bytes) := by decide

theorem witness_SpecialRegisterAccesses : (0x308 : Addr) ∈
    ([0x200, 0x204, 0x208, 0x20C, 0x210, 0x214, 0x218, 0x308] : List Addr) := by decide

/-- A word write and a halfword read that overlap by one byte at the end of HBUF. -/
theorem witness_MixedWidthReadAfterWrite :
    (0x085 : Addr).toNat + AccessSize.word.bytes ≤ 138 ∧ (0x088 : Addr).toNat + AccessSize.half.bytes ≤ 138 ∧
    1 < AccessSize.half.bytes := by decide

theorem witness_AccessesAreIdempotent :
    State.reset.hbuf.wf ∧ cmdWrite 0x11 ≠ .reset ∧ (∃ t, step (State.reset.issue (cmdWrite 0x11)) = .next t) ∧
    (∃ t, step (State.reset.issue (.read .word 0x308)) = .next t) :=
  ⟨Memory.wf_nil, by decide, ⟨_, rfl⟩, _, rfl⟩

theorem witness_FailedCommandChangesOnlyStatus :
    ∃ t, executeWord 0x00000122 State.reset = .next t ∧ t.status.code ≠ 0 := ⟨_, rfl, by decide⟩

theorem witness_CommandsReportTheirOwnCodes :
    (∃ t, exec .encfh State.reset = .next t) ∧ (∃ t, exec .norm (dims 0xFFFFFFFF 2 24) = .next t) ∧
    (∃ t, exec (.synth true) (dims 0 5 0) = .next t) ∧ (∃ t, exec .validate s24 = .next t) :=
  ⟨⟨_, rfl⟩, ⟨_, rfl⟩, ⟨_, rfl⟩, _, rfl⟩

theorem witness_StickyClearedOnlyByHost :
    (∃ t, step (rejected.issue (.write .word 0x304 0x10)) = .next t ∧ rejected.status.sticky = true ∧
      t.status.sticky = false) ∧
    (∃ t, step (rejected.issue .reset) = .next t ∧ t.status.sticky = false) :=
  ⟨⟨_, rfl, rfl, rfl⟩, _, rfl, rfl⟩

theorem witness_StrideResultsGoStale :
    ∃ t, step ((dims 5 2 24).issue (cmdWrite 0x20)) = .next t ∧ t.sc ≠ ((dims 5 2 24).issue (cmdWrite 0x20)).sc :=
  ⟨_, rfl, by decide⟩

/-- A host write of the last byte, and ENCFH over a byte that held another value. -/
theorem witness_HbufWrittenOnlyByHostAndEncode :
    (∃ t, step ((loaded 137 [0x55]).issue (.write .byte 0x089 0xAA)) = .next t ∧
      t.hbufByte 137 ≠ ((loaded 137 [0x55]).issue (.write .byte 0x089 0xAA)).hbufByte 137) ∧
    (∃ t, step ((loaded 13 [0x55]).issue (cmdWrite 0x11)) = .next t ∧
      t.hbufByte 13 ≠ ((loaded 13 [0x55]).issue (cmdWrite 0x11)).hbufByte 13) :=
  ⟨⟨_, rfl, by decide⟩, _, rfl, by decide⟩

theorem witness_FieldsWrittenOnlyByTheirCommands :
    (∃ t, step (State.reset.issue (.write .word 0x110 54)) = .next t ∧
      t.fh ≠ (State.reset.issue (.write .word 0x110 54)).fh) ∧
    (∃ t, step ((dims 5 2 24).issue (cmdWrite 0x21)) = .next t ∧ t.ih ≠ ((dims 5 2 24).issue (cmdWrite 0x21)).ih) ∧
    (∃ t, step ((dims 1 1 0).issue (cmdWrite 0x22)) = .next t ∧ t.cm ≠ ((dims 1 1 0).issue (cmdWrite 0x22)).cm) :=
  ⟨⟨_, rfl, by decide⟩, ⟨_, rfl, by decide⟩, _, rfl, by decide⟩

/-- A state with HBUF bytes, an error report and stride results that are not zero. -/
theorem witness_StepKeepsInvariant :
    let s : State := { (loaded 137 [0x55]).issue (cmdWrite 0x13) with
      status := ⟨4, true, 3⟩, sc := ⟨3, 15, 16, 1, 30, 32⟩ }
    s.Inv ∧ ∃ t, step s = .next t :=
  ⟨⟨by decide, by decide, 5, 2, by decide, by decide, by decide, by decide, by decide, by decide, by decide, by decide,
    by decide⟩, _, rfl⟩

/-- VALIDATE at reset (V64): CODE and DETAIL change and STICKY rises. -/
theorem witness_StatusReportedOnlyByCommands :
    ∃ t, step (State.reset.issue (cmdWrite 0x30)) = .next t ∧ t.status.code ≠ State.reset.status.code ∧
      t.status.detail ≠ State.reset.status.detail ∧ State.reset.status.sticky = false ∧ t.status.sticky = true :=
  ⟨_, rfl, by decide, by decide, rfl, rfl⟩

theorem witness_AdmittedHostNeverFaults :
    ∀ e ∈ (((State.reset.issue (.read .word 0x308)).issue (cmdWrite 0xFFFFFFFF)).issue
      (.write .word 0x086 0x12345678)).pending, e.admitted := by
  intro e he
  simp only [State.issue_pending, List.mem_cons] at he
  rcases he with rfl | rfl | rfl | he
  · exact .inl (by decide)
  · exact .inr (by decide)
  · exact .inr (by decide)
  · cases he

end Sys2Proof.Tests
end

/-! ## Family 10_state: the registers as the host reads and writes them (R26, R29, R30, R31) -/

namespace Sys2Proof.Machine

/-! ### A host access to a register -/

/-- A register is read by a 4-byte read at its address, and only the bus's answer changes (R53). -/
theorem step_issue_read_reg {a : Addr} {r : RegName} (h : r.addr = a.toNat) (s : State) :
    step (s.issue (.read .word a)) = .next { s with response := .data (s.regRead r) } := by
  rw [step_issue, hostEvent, hostRead, target_reg h]
  rfl

/-- A 4-byte write at a register's address is the register's write (R53, R54). -/
theorem step_issue_write_reg {a : Addr} {r : RegName} (h : r.addr = a.toNat) (s : State) (v : Word) :
    step (s.issue (.write .word a v)) = s.regWrite a v r := by
  rw [step_issue, hostEvent, hostWrite, target_reg h]

/-- The 12 bits of a bus address hold every register's address (R50). -/
theorem RegName.toNat_ofNat_addr (r : RegName) : (BitVec.ofNat 12 r.addr).toNat = r.addr := by
  rw [BitVec.toNat_ofNat, Nat.mod_eq_of_lt r.addr_lt]

/-- The field registers lie below the read-only ones (R50). -/
theorem FieldReg.addr_lt (r : FieldReg) : r.addr < 0x200 := by
  cases r with
  | cmUnused i =>
    rw [FieldReg.addr]
    omega
  | _ => decide

/-- No width of write reaches a read-only register, nor any other byte of its address range (R52, R54). -/
theorem step_issue_write_readOnly {a : Addr} (h : readOnly a.toNat) (s : State) (n : AccessSize) (v : Word) :
    step (s.issue (.write n a v)) = .fault (.busError a) := by
  rw [step_issue, hostEvent, hostWrite]
  rcases target_cases n a with ⟨hb, -⟩ | ⟨-, r, hr, ht⟩ | ⟨-, -, ht⟩
  · simp only [Config.hbufSize, Config.fhWireSize, Config.ihWireSize, Config.cmWireSize] at hb
    omega
  · rw [ht]
    cases r with
    | field r =>
      have hlt := r.addr_lt
      rw [RegName.addr] at hr
      omega
    | cmd | status =>
      rw [RegName.addr] at hr
      omega
    | _ => rfl
  · rw [ht]

/-! ### The derived registers' words -/

/-- SC_CONTIG's bit 0 (R29). -/
theorem State.contigWord_0 (s : State) : s.contigWord.getLsbD 0 = decide (s.sc.pad = 0) := by
  by_cases h : s.sc.pad = 0
  · rw [State.contigWord, if_pos h, decide_eq_true h]
    rfl
  · rw [State.contigWord, if_neg h, decide_eq_false h]
    rfl

/-- SC_CONTIG's bits [31:1] (R29). -/
theorem State.contigWord_upper (s : State) : s.contigWord.extractLsb' 1 31 = 0 := by
  rw [State.contigWord]
  split <;> decide

/-- A check computed as a Bool, as the decision of the proposition it checks. -/
theorem eq_decide_of_iff {b : Bool} {p : Prop} [Decidable p] (h : b = true ↔ p) : b = decide p := by
  rw [Bool.eq_iff_iff, h, decide_eq_true_iff]

/-- FLAGS's bits [31:8] (R31). -/
theorem State.flagsWord_upper (s : State) : s.flagsWord.extractLsb' 8 24 = 0 := by
  rw [State.flagsWord]
  iterate 8 rw [BitVec.extractLsb'_append_eq_of_le (by decide)]
  exact BitVec.extractLsb'_zero

/-- STATUS's reserved bits [7:5] (R30). -/
theorem Status.word_reserved (t : Status) : t.word.extractLsb' 5 3 = 0 := by
  rw [Status.word]
  iterate 2 rw [BitVec.extractLsb'_append_eq_of_le (by decide)]
  rw [BitVec.extractLsb'_append_eq_of_add_le (by decide)]
  exact BitVec.extractLsb'_zero

/-- STATUS's reserved bits [31:12] (R30). -/
theorem Status.word_upper (t : Status) : t.word.extractLsb' 12 20 = 0 := by
  rw [Status.word]
  iterate 4 rw [BitVec.extractLsb'_append_eq_of_le (by decide)]
  exact BitVec.extractLsb'_zero

/-! ### Field registers -/

/-- The five 16-bit registers (R26). -/
theorem FieldReg.bytes_eq_two_iff (r : FieldReg) :
    r.bytes = 2 ↔ r ∈ [FieldReg.fhType, .fhRes1, .fhRes2, .ihPlanes, .ihBitCount] := by
  cases r <;> simp [FieldReg.bytes]

/-- Storing 16 bits and reading them zero-extended masks the rest (R26). -/
theorem setWidth_half_setWidth_word (v : Word) : (v.setWidth 16).setWidth 32 = v &&& 0xFFFF := by
  apply BitVec.eq_of_toNat_eq
  rw [BitVec.toNat_setWidth, BitVec.toNat_setWidth, BitVec.toNat_and,
    show (0xFFFF : Word).toNat = 2 ^ 16 - 1 from rfl, Nat.and_two_pow_sub_one_eq_mod]
  omega

/-- A register reads what its width keeps of the value written (R26). -/
theorem State.readField_writeField_same (s : State) (r : FieldReg) (v : Word) :
    (s.writeField r v).readField r = if r.bytes = 2 then v &&& 0xFFFF else v := by
  cases r with
  | fhType | fhRes1 | fhRes2 | ihPlanes | ihBitCount => exact setWidth_half_setWidth_word v
  | cmUnused i => exact Vector.getElem_set_self i.isLt
  | _ => rfl

/-- A write of one register leaves every other as it read (R26). -/
theorem State.readField_writeField_ne (s : State) {r r' : FieldReg} (h : r' ≠ r) (v : Word) :
    (s.writeField r v).readField r' = s.readField r' := by
  cases r with
  | cmUnused i =>
    cases r' with
    | cmUnused j =>
      have hij : i.val ≠ j.val := fun he => h (congrArg _ (Fin.ext he.symm))
      exact Vector.getElem_set_ne i.isLt j.isLt hij
    | _ => rfl
  | _ => cases r' <;> solve | rfl | contradiction

/-- A write of a register changes the three headers only (R22, R26). -/
theorem State.writeField_eq (s : State) (r : FieldReg) (v : Word) :
    s.writeField r v =
      { s with fh := (s.writeField r v).fh, ih := (s.writeField r v).ih, cm := (s.writeField r v).cm } := by
  cases r <;> rfl

/-! ### What a word executed does to STATUS -/

/-- A word leaves CODE and DETAIL 0 and STICKY as it was, or the report of an error of R151 (R30, R72). -/
theorem executeWord_status {w : Word} {s t : State} (h : executeWord w s = .next t) :
    t.status = { s.status with code := 0, detail := 0 } ∨
      (∃ e : CmdError, t = s.raiseError e ∧ (e.code, e.detail) ∈ legalReports ∧ e.code ≠ .ok) := by
  rcases executeWord_cases h with ⟨e, -, rfl⟩ | ⟨i, -, hi⟩
  · refine .inr ⟨_, rfl, ?_⟩
    cases e <;> decide
  · exact exec_status hi

/-- An error's report has a DETAIL (R151). -/
theorem detail_ne_zero_of_legalReports : ∀ p ∈ legalReports, p.1 ≠ .ok → p.2.bits ≠ 0 := by decide

/-! ### The obligations -/

/-- Settles O25: 0x218 reads the word SC_CONTIG is derived as, and lies among the read-only addresses. -/
theorem contigFollowsPad : Obligations.ContigFollowsPad := fun s =>
  ⟨⟨_, s.contigWord, step_issue_read_reg (r := .scContig) rfl s, rfl, s.contigWord_0, s.contigWord_upper⟩,
    step_issue_write_readOnly (by decide) s⟩

/-- Settles O28: 0x308 reads the word of the eight checks, each a proposition about the registers, and lies among the
read-only addresses. -/
theorem flagsReadCurrentChecks : Obligations.FlagsReadCurrentChecks := fun s =>
  ⟨⟨s.flagsWord, step_issue_read_reg (r := .flags) rfl s,
      s.flagsWord_0.trans (eq_decide_of_iff s.sigOk_iff),
      s.flagsWord_1.trans (eq_decide_of_iff s.sizeOk_iff),
      s.flagsWord_2.trans (eq_decide_of_iff s.maskOk_iff),
      s.flagsWord_3.trans (eq_decide_of_iff s.csOk_iff),
      s.flagsWord_4.trans (eq_decide_of_iff s.orientOk_iff),
      s.flagsWord_5.trans (eq_decide_of_iff s.bppOk_iff),
      s.flagsWord_6.trans (eq_decide_of_iff s.compOk_iff),
      s.flagsWord_7.trans (eq_decide_of_iff s.mode32_iff),
      s.flagsWord_upper⟩,
    step_issue_write_readOnly (by decide) s⟩

/-- Settles O27: STATUS reads its three fields in their places, a write of it touches STICKY only, and a word executed
either completes or raises an error, whose code and detail are not 0. -/
theorem statusReadsAndClears : Obligations.StatusReadsAndClears := by
  refine ⟨fun s => ⟨s.status.word, step_issue_read_reg (r := .status) rfl s, s.status.word_code,
    s.status.word_sticky, s.status.word_reserved, s.status.word_detail, s.status.word_upper⟩, fun s v => ?_,
    fun w s t h => ?_, rfl⟩
  · rw [step_issue_write_reg (r := .status) rfl, State.regWrite, State.writeStatus_eq]
    rfl
  · rcases executeWord_status h with hs | ⟨e, rfl, hlegal, hne⟩
    · rw [hs]
      exact ⟨fun h0 => absurd rfl h0, fun _ => ⟨rfl, rfl⟩⟩
    · exact ⟨fun _ => ⟨rfl, detail_ne_zero_of_legalReports _ hlegal hne⟩,
        fun h0 => absurd (ErrorCode.bits_eq_zero.mp h0) hne⟩

/-- Settles O23: what a field register keeps and reads, the frame of its write, and the host's write and read of it at
its address. -/
theorem fieldRegisterTruncates : Obligations.FieldRegisterTruncates := by
  intro r v s kept
  have haddr : (RegName.field r).addr = (BitVec.ofNat 12 r.addr).toNat :=
    (RegName.toNat_ofNat_addr (.field r)).symm
  have hkept : (s.writeField r v).readField r = kept := by
    rw [s.readField_writeField_same]
    simp only [FieldReg.bytes_eq_two_iff, kept]
  refine ⟨hkept, fun r' h => s.readField_writeField_ne h v, s.writeField_eq r v, by simp, by simp, by simp,
    step_issue_write_reg haddr s v, _, step_issue_read_reg haddr _, ?_⟩
  rw [State.regRead, hkept]

end Sys2Proof.Machine

/-! ## Family 20_memory: the host's accesses of the special registers (R54) -/

namespace Sys2Proof.Machine

/-- The registers whose write is a bus error, by their addresses (R54). -/
theorem readOnly_of_mem_list : ∀ a ∈ ([0x200, 0x204, 0x208, 0x20C, 0x210, 0x214, 0x218, 0x308] : List Addr),
    readOnly a.toNat := by
  decide

/-- The STATUS a host's write leaves, by the bit it tests (R54). -/
theorem State.writeStatus_eq_ite (s : State) (v : Word) :
    s.writeStatus v = { s with status :=
      { s.status with sticky := if v.getLsbD 4 then false else s.status.sticky } } := by
  rw [s.writeStatus_eq]
  cases v.getLsbD 4 with
  | true => rw [if_pos rfl, Bool.not_true, Bool.and_false]
  | false => rw [if_neg Bool.false_ne_true, Bool.not_false, Bool.and_true]

/-- Settles O33: the listed addresses are read-only; STATUS and CMD are reached as registers, and each has its own
write; CMD reads 0. -/
theorem specialRegisterAccesses : Obligations.SpecialRegisterAccesses := by
  refine fun s v => ⟨fun a ha => step_issue_write_readOnly (readOnly_of_mem_list a ha) s .word v, ?_,
    step_issue_write_reg (r := .cmd) rfl s v, step_issue_read_reg (r := .cmd) rfl s⟩
  rw [step_issue_write_reg (r := .status) rfl, State.regWrite, State.writeStatus_eq_ite]
  rfl

end Sys2Proof.Machine

/-! ## Family 30_encoding: the order in which a command word is decoded (R70, R71, R72) -/

namespace Sys2Proof

/-! ### The opcode map and the fields of a word -/

/-- The opcode map is undefined exactly outside the eleven opcodes of R71, whatever the A bit. -/
theorem commandOfOp_eq_none_iff {op : Byte} {a : Bool} :
    commandOfOp op a = none ↔
      op ∉ ([0x00, 0x01, 0x02, 0x03, 0x11, 0x12, 0x13, 0x20, 0x21, 0x22, 0x30] : List Byte) := by
  constructor
  · intro h hop
    simp only [List.mem_cons, List.not_mem_nil, or_false] at hop
    rcases hop with rfl | rfl | rfl | rfl | rfl | rfl | rfl | rfl | rfl | rfl | rfl <;> cases h
  · intro hop
    simp only [List.mem_cons, List.not_mem_nil, or_false, not_or] at hop
    simp only [commandOfOp, synthOp, hop, if_false]

/-- Each of the eleven opcodes has its command (R71). -/
theorem exists_commandOfOp_eq_some {op : Byte} (a : Bool)
    (hop : op ∈ ([0x00, 0x01, 0x02, 0x03, 0x11, 0x12, 0x13, 0x20, 0x21, 0x22, 0x30] : List Byte)) :
    ∃ i, commandOfOp op a = some i :=
  Option.ne_none_iff_exists'.mp fun hnone => commandOfOp_eq_none_iff.mp hnone hop

/-- SYNTH is the one command of its opcode (R71). -/
theorem exists_eq_synth_of_opcodeOf {i : Instr} (h : opcodeOf i = synthOp) : ∃ a, i = .synth a := by
  cases i with
  | synth a => exact ⟨a, rfl⟩
  | _ => exact absurd h (by decide)

/-- A word is its three fields OP, A and RSV (R70). -/
theorem word_eq_of_fields {w w' : Word} (hop : opField w = opField w') (ha : aField w = aField w')
    (hrsv : rsvField w = rsvField w') : w = w' := by
  apply BitVec.eq_of_getLsbD_eq
  intro k hk
  obtain hlt | rfl | hgt := Nat.lt_trichotomy k 8
  · simpa [opField, hlt] using congrArg (·.getLsbD k) hop
  · exact ha
  · have hbit := congrArg (·.getLsbD (k - 9)) hrsv
    simpa [rsvField, show k - 9 < 23 by omega, show 9 + (k - 9) = k by omega] using hbit

/-- The fields of every command's word (R70, R71). -/
theorem wordFields : ∀ i : Instr, Laws.WordFields.Statement i
  | .nop => Laws.WordFields.nop
  | .decfh => Laws.WordFields.decfh
  | .decih => Laws.WordFields.decih
  | .deccm => Laws.WordFields.deccm
  | .encfh => Laws.WordFields.encfh
  | .encih => Laws.WordFields.encih
  | .enccm => Laws.WordFields.enccm
  | .stride => Laws.WordFields.stride
  | .norm => Laws.WordFields.norm
  | .synth a => Laws.WordFields.synth a
  | .validate => Laws.WordFields.validate

/-! ### The three outcomes of decoding -/

/-- R72, first: an opcode outside the map. -/
theorem decode_of_commandOfOp_none {w : Word} (h : commandOfOp (opField w) (aField w) = none) :
    decode w = .error .undefOp := by
  rw [decode, h]

/-- R72, second: a reserved bit, or the A bit on an opcode other than SYNTH's. -/
theorem decode_of_reserved {w : Word} {i : Instr} (h : commandOfOp (opField w) (aField w) = some i)
    (hbits : rsvField w ≠ 0 ∨ (aField w = true ∧ opField w ≠ synthOp)) : decode w = .error .rsvBits := by
  rw [decode, h]
  exact if_pos hbits

/-- R72, third: the command of the opcode. -/
theorem decode_of_legal {w : Word} {i : Instr} (h : commandOfOp (opField w) (aField w) = some i)
    (hrsv : rsvField w = 0) (ha : aField w = true → opField w = synthOp) : decode w = .ok i := by
  rw [decode, h]
  exact if_neg fun hbits => hbits.elim (· hrsv) fun hA => hA.2 (ha hA.1)

/-- A word that decodes is the word of its command: the two agree in OP, in A and in RSV (R71). -/
theorem encode_eq_of_decode {w : Word} {i : Instr} (h : decode w = .ok i) : encode i = w := by
  obtain ⟨hmap, hrsv, hA⟩ := decode_ok_cases h
  obtain ⟨hop, hsynth⟩ := opcode_of_commandOfOp hmap
  obtain ⟨hop', hrsv', hA'⟩ := wordFields i
  have ha : aField (encode i) = aField w := by
    rw [Bool.eq_iff_iff, hA' _ rfl]
    constructor
    · rintro rfl
      exact (hsynth true rfl).symm
    · intro haw
      obtain ⟨a, rfl⟩ := exists_eq_synth_of_opcodeOf (hop.trans (hA haw))
      rw [hsynth a rfl, haw]
  exact word_eq_of_fields (hop'.trans hop) ha (hrsv'.trans hrsv.symm)

end Sys2Proof

namespace Sys2Proof.Machine

/-- A word that does not decode reports IllegalCommand (R72). -/
theorem executeWord_of_decode_error {w : Word} {e : DecodeError} (h : decode w = .error e) (s : State) :
    executeWord w s = .next (s.raiseError ⟨.illegalCommand, detailOf e⟩) := by
  rw [executeWord, h]

/-- A word that decodes is executed as its command (R72). -/
theorem executeWord_of_decode_ok {w : Word} {i : Instr} (h : decode w = .ok i) (s : State) :
    executeWord w s = exec i s := by
  rw [executeWord, h]

/-- Settles O2: the opcode map decides the first error, the reserved bits and A the second, and a word past both
decodes to the command whose word it is. -/
theorem executeDecodesInOrder : Obligations.ExecuteDecodesInOrder := by
  intro w s
  refine ⟨fun hop => ?_, fun hop hbits => ?_, fun hop hrsv hA => ?_⟩
  · exact executeWord_of_decode_error (decode_of_commandOfOp_none (commandOfOp_eq_none_iff.mpr hop)) s
  · obtain ⟨i, hi⟩ := exists_commandOfOp_eq_some (aField w) hop
    exact executeWord_of_decode_error (decode_of_reserved hi hbits) s
  · obtain ⟨i, hi⟩ := exists_commandOfOp_eq_some (aField w) hop
    have hdec := decode_of_legal hi hrsv hA
    exact ⟨i, encode_eq_of_decode hdec, (opcode_of_commandOfOp hi).2, executeWord_of_decode_ok hdec s⟩

end Sys2Proof.Machine

/-! ## Family 40_codec: what the six codec commands load and store (R100 to R108) -/

namespace Sys2Proof.Machine

/-! ### Bytes of HBUF and the values they make -/

/-- MemRead of 2 bytes into a 16-bit register (R26, R57). -/
@[simp] theorem State.setWidth_memRead_two (s : State) (off : Nat) :
    (s.memRead off 2).setWidth 16 = le16 s.hbufByte off := by
  rw [s.memRead_two, setWidth_setWidth_half]
  rfl

/-- A list of bytes laid out from an offset up, as HBUF's bytes are read. -/
def bytesFrom (off : Nat) (bs : List Byte) (k : Nat) : Byte := bs.getD (k - off) 0

/-- A byte inside a run whose bytes are known. -/
theorem State.hbufByte_of_hbufBytes {s : State} {off n : Nat} {bs : List Byte} (h : s.hbufBytes off n = bs) {k : Nat}
    (hlo : off ≤ k) (hhi : k < off + n) : s.hbufByte k = bytesFrom off bs k := by
  rw [← h, bytesFrom, List.getD_eq_getElem?_getD, s.getElem?_hbufBytes, if_pos (by omega), Option.getD_some,
    Nat.add_sub_cancel' hlo]

/-- A 16-bit number inside a run whose bytes are known. -/
theorem State.le16_of_hbufBytes {s : State} {off n : Nat} {bs : List Byte} (h : s.hbufBytes off n = bs) {k : Nat}
    (hlo : off ≤ k) (hhi : k + 2 ≤ off + n) : le16 s.hbufByte k = le16 (bytesFrom off bs) k := by
  have hb : ∀ i < 2, s.hbufByte (k + i) = bytesFrom off bs (k + i) := fun i hi =>
    State.hbufByte_of_hbufBytes h (by omega) (by omega)
  rw [le16, hb 1 (by decide)]
  exact congrArg _ (hb 0 (by decide))

/-- A 32-bit number inside a run whose bytes are known. -/
theorem State.le32_of_hbufBytes {s : State} {off n : Nat} {bs : List Byte} (h : s.hbufBytes off n = bs) {k : Nat}
    (hlo : off ≤ k) (hhi : k + 4 ≤ off + n) : le32 s.hbufByte k = le32 (bytesFrom off bs) k := by
  have hb : ∀ i < 4, s.hbufByte (k + i) = bytesFrom off bs (k + i) := fun i hi =>
    State.hbufByte_of_hbufBytes h (by omega) (by omega)
  rw [le32, hb 3 (by decide), hb 2 (by decide), hb 1 (by decide)]
  exact congrArg _ (hb 0 (by decide))

/-- A 16-bit number is told by its two bytes (R57). -/
theorem le16_eq_append_iff {f : Nat → Byte} {k : Nat} {hi lo : Byte} :
    le16 f k = hi ++ lo ↔ f k = lo ∧ f (k + 1) = hi :=
  append_byte_inj.trans and_comm

@[simp] theorem State.complete_hbufBytes (s : State) (off n : Nat) : s.complete.hbufBytes off n = s.hbufBytes off n :=
  State.hbufBytes_congr fun _ _ _ => rfl

/-- A run of bytes known in two parts, each part known. -/
theorem State.hbufBytes_split {s : State} {off n m : Nat} {as bs : List Byte} (h : s.hbufBytes off (n + m) = as ++ bs)
    (hn : as.length = n) : s.hbufBytes off n = as ∧ s.hbufBytes (off + n) m = bs :=
  List.append_inj ((s.hbufBytes_add off n m).symm.trans h) ((s.length_hbufBytes off n).trans hn.symm)

/-! ### What the decode commands load -/

/-- The FH registers that bytes 0..13 stand for (R80). -/
def FileRegs.ofBytes (f : Nat → Byte) : FileRegs where
  type := le16 f 0
  size := le32 f 2
  res1 := le16 f 6
  res2 := le16 f 8
  offBits := le32 f 10

/-- The IH registers that bytes 14..53 stand for (R81). -/
def InfoRegs.ofBytes (f : Nat → Byte) : InfoRegs where
  size := le32 f 14
  width := le32 f 18
  height := le32 f 22
  planes := le16 f 26
  bitCount := le16 f 28
  compression := le32 f 30
  sizeImage := le32 f 34
  xppm := le32 f 38
  yppm := le32 f 42
  clrUsed := le32 f 46
  clrImportant := le32 f 50

/-- The CM registers that bytes 54..137 stand for (R82). -/
def MaskRegs.ofBytes (f : Nat → Byte) : MaskRegs where
  red := le32 f 54
  green := le32 f 58
  blue := le32 f 62
  alpha := le32 f 66
  csType := le32 f 70
  unused := Vector.ofFn fun i => le32 f (74 + 4 * i.val)

/-- DECFH loads the FH registers and completes (R103). -/
theorem exec_decfh (s : State) :
    exec .decfh s = .next ({ s with fh := .ofBytes s.hbufByte } : State).complete := by
  rw [exec_eq_of_effectOf (i := .decfh) rfl, decodeFields_fhFields]
  simp only [State.setWidth_memRead_two, State.memRead_four]
  rfl

/-- DECIH loads the IH registers and completes (R104). -/
theorem exec_decih (s : State) :
    exec .decih s = .next ({ s with ih := .ofBytes s.hbufByte } : State).complete := by
  rw [exec_eq_of_effectOf (i := .decih) rfl, decodeFields_ihFields]
  simp only [State.setWidth_memRead_two, State.memRead_four]
  rfl

/-- DECCM loads the CM registers and completes, whatever the mode (R105). -/
theorem exec_deccm (s : State) :
    exec .deccm s = .next ({ s with cm := .ofBytes s.hbufByte } : State).complete := by
  rw [exec_eq_of_effectOf (i := .deccm) rfl, decodeFields_cmFields]
  simp only [State.memRead_four]
  rfl

/-- Settles O6: the load is `exec_decfh`; SIG_OK compares the two bytes of FH_TYPE with the magic's. -/
theorem decfhLoadsFileHeader : Obligations.DecfhLoadsFileHeader := by
  refine ⟨rfl, exec_decfh, fun s t h => ?_, fun s h => ?_⟩
  · rw [exec_decfh] at h
    cases h
    exact (State.flagsWord_0 _).trans
      (eq_decide_of_iff ((State.sigOk_iff _).trans (le16_eq_append_iff (hi := 0x4D) (lo := 0x42))))
  · rw [exec_decfh, FileRegs.ofBytes]
    simp (disch := decide) only [State.le16_of_hbufBytes h, State.le32_of_hbufBytes h]
    rfl

/-- Settles O7: the load is `exec_decih`; the five checks read its registers, and the known bytes give the fields. -/
theorem decihLoadsInfoHeader : Obligations.DecihLoadsInfoHeader := by
  refine ⟨rfl, exec_decih, fun s t h => ?_, fun s t hb h => ?_, fun s hlo hhi => ?_⟩
  · rw [exec_decih] at h
    cases h
    exact ⟨(State.flagsWord_1 _).trans (eq_decide_of_iff (State.sizeOk_iff _)),
      (State.flagsWord_4 _).trans (eq_decide_of_iff (State.orientOk_iff _)),
      (State.flagsWord_5 _).trans (eq_decide_of_iff (State.bppOk_iff _)),
      (State.flagsWord_6 _).trans (eq_decide_of_iff (State.compOk_iff _)),
      (State.flagsWord_7 _).trans (eq_decide_of_iff (State.mode32_iff _))⟩
  · rw [exec_decih] at h
    cases h
    have hheight : le32 s.hbufByte 22 = 0xFFFFFFFE := State.le32_of_hbufBytes hb (by decide) (by decide)
    exact ⟨hheight, congrArg BitVec.toInt hheight⟩
  · rw [exec_decih, InfoRegs.ofBytes]
    simp (disch := decide) only [State.le16_of_hbufBytes hlo, State.le32_of_hbufBytes hlo,
      State.le32_of_hbufBytes hhi]
    rfl

/-- Settles O8: the load is `exec_deccm`, with no mode in it; the two checks read its registers. -/
theorem deccmLoadsColorMaskHeader : Obligations.DeccmLoadsColorMaskHeader := by
  refine ⟨rfl, exec_deccm, fun s t h => ?_, fun s t hb h => ?_⟩ <;> rw [exec_deccm] at h <;> cases h
  · exact ⟨(State.flagsWord_2 _).trans (eq_decide_of_iff (State.maskOk_iff _)),
      (State.flagsWord_3 _).trans (eq_decide_of_iff (State.csOk_iff _))⟩
  · have hfield : ∀ k, 54 ≤ k → k + 4 ≤ 74 → le32 s.hbufByte k = le32 (bytesFrom 54 _) k := fun k =>
      State.le32_of_hbufBytes hb
    have hred : le32 s.hbufByte 54 = 0x00FF0000 := hfield 54 (by decide) (by decide)
    have hgreen : le32 s.hbufByte 58 = 0x0000FF00 := hfield 58 (by decide) (by decide)
    have hblue : le32 s.hbufByte 62 = 0x000000FF := hfield 62 (by decide) (by decide)
    have halpha : le32 s.hbufByte 66 = 0xFF000000 := hfield 66 (by decide) (by decide)
    have hcs : le32 s.hbufByte 70 = 0x73524742 := hfield 70 (by decide) (by decide)
    exact ⟨hred, hgreen, hblue, halpha, hcs,
      (State.flagsWord_2 _).trans ((State.maskOk_iff _).mpr ⟨hred, hgreen, hblue, halpha⟩),
      (State.flagsWord_3 _).trans ((State.csOk_iff _).mpr hcs)⟩

/-! ### What the encode commands store -/

/-- The fields fill the `n` bytes from an offset up, in order, with no gap (R80 to R82). -/
def tiles : List Field → Nat → Nat → Bool
  | [], _, n => n == 0
  | f :: L, off, n => f.off == off && decide (f.bytes ≤ n) && tiles L (off + f.bytes) (n - f.bytes)

theorem tiles_cons {f : Field} {L : List Field} {off n : Nat} :
    tiles (f :: L) off n ↔ f.off = off ∧ f.bytes ≤ n ∧ tiles L (off + f.bytes) (n - f.bytes) := by
  simp [tiles, and_assoc]

/-- The bytes of the registers of a list of fields, in order, each least significant byte first (R100). -/
def fieldsImage (L : List Field) (s : State) : List Byte := L.flatMap fun f => leBytes f.bytes (s.readField f.reg)

/-- Fields that fill a run of bytes cover none outside it. -/
theorem bounds_of_covers {L : List Field} {off n : Nat} (hL : tiles L off n) {k : Nat} (hk : covers L k) :
    off ≤ k ∧ k < off + n := by
  obtain ⟨f, hf, hlo, hhi⟩ := hk
  induction L generalizing off n with
  | nil => cases hf
  | cons g L ih =>
    obtain ⟨hoff, hle, hrest⟩ := tiles_cons.mp hL
    rcases List.mem_cons.mp hf with rfl | hf
    · omega
    · have := ih hrest hf
      omega

/-- HBUF over the run of bytes that fields fill, where it holds each field's register. -/
theorem hbufBytes_eq_fieldsImage {L : List Field} {off n : Nat} (hL : tiles L off n) {s t : State}
    (h : ∀ f ∈ L, t.hbufBytes f.off f.bytes = leBytes f.bytes (s.readField f.reg)) :
    t.hbufBytes off n = fieldsImage L s := by
  induction L generalizing off n with
  | nil =>
    obtain rfl : n = 0 := beq_iff_eq.mp hL
    rfl
  | cons f L ih =>
    obtain ⟨rfl, hle, hrest⟩ := tiles_cons.mp hL
    rw [← Nat.add_sub_cancel' hle, t.hbufBytes_add, h f List.mem_cons_self,
      ih hrest fun g hg => h g (List.mem_cons_of_mem _ hg)]
    rfl

/-- An ENC* command leaves the image of its registers in the bytes its fields fill (R100). -/
theorem encodeFields_complete_hbufBytes {L : List Field} (hp : L.Pairwise fun f g => f.off + f.bytes ≤ g.off)
    {off n : Nat} (hL : tiles L off n) (s : State) :
    (encodeFields L s).complete.hbufBytes off n = fieldsImage L s :=
  hbufBytes_eq_fieldsImage hL fun _ hf => (State.complete_hbufBytes _ _ _).trans (encodeFields_hbufBytes hp s hf)

/-- An ENC* command leaves every byte below and above those its fields fill as it was. -/
theorem encodeFields_complete_hbufByte {L : List Field} {off n : Nat} (hL : tiles L off n) (s : State) {k : Nat}
    (hk : k < off ∨ off + n ≤ k) : (encodeFields L s).complete.hbufByte k = s.hbufByte k := by
  refine encodeFields_hbufByte_of_not_covers s fun hcov => ?_
  have := bounds_of_covers hL hcov
  omega

theorem tiles_fhFields : tiles fhFields 0 14 := by decide
theorem tiles_ihFields : tiles ihFields 14 40 := by decide
theorem tiles_cmFields : tiles cmFields 54 84 := by decide

/-- The fields of the reserved words (R82). -/
theorem cmUnused_mem_cmFields (i : Fin 16) : ⟨.cmUnused i, 74 + 4 * i.val, 4⟩ ∈ cmFields :=
  List.mem_append_right _ (List.mem_map_of_mem (List.mem_finRange i))

/-- The bytes of a value, by their places (R7). -/
theorem leBytes_eq_map (n : Nat) (v : Word) : leBytes n v = (List.range n).map fun i => v.extractLsb' (8 * i) 8 := by
  apply List.ext_getElem?
  intro i
  rw [getElem?_leBytes, List.getElem?_map]
  by_cases hi : i < n
  · rw [if_pos hi, List.getElem?_range hi]
    rfl
  · rw [if_neg hi, List.getElem?_eq_none (by simpa using hi)]
    rfl

/-- The bytes of a 32-bit register (R57). -/
theorem leBytes_four (v : Word) : leBytes 4 v = bytesOf32 v := by
  rw [leBytes_eq_map]
  rfl

/-- The bytes of a 16-bit register, zero-extended as R[name] reads it (R26, R57). -/
theorem leBytes_two_setWidth (v : Half) : leBytes 2 (v.setWidth 32) = bytesOf16 v := by
  have hbyte : ∀ i < 2, (v.setWidth 32).extractLsb' (8 * i) 8 = v.extractLsb' (8 * i) 8 := fun i hi =>
    BitVec.extractLsb'_setWidth_of_le (by omega)
  rw [leBytes_eq_map, List.map_congr_left fun i hi => hbyte i (List.mem_range.mp hi)]
  rfl

/-- A command that cannot fail leaves the state it makes, completed. -/
theorem eq_complete_of_effectOf {i : Instr} {s t u : State} (hu : effectOf i s = some u) (h : exec i s = .next t) :
    t = u.complete :=
  Host.Outcome.next.inj (h.symm.trans (exec_eq_of_effectOf hu))

/-- What ENCFH leaves in HBUF[0..13] (R106). -/
theorem encfh_hbufBytes (s : State) : (encodeFields fhFields s).complete.hbufBytes 0 14 =
    bytesOf16 s.fh.type ++ bytesOf32 s.fh.size ++ bytesOf16 s.fh.res1 ++ bytesOf16 s.fh.res2 ++
      bytesOf32 s.fh.offBits := by
  rw [encodeFields_complete_hbufBytes pairwise_fhFields tiles_fhFields]
  simp only [← leBytes_four, ← leBytes_two_setWidth]
  rfl

/-- Settles O9: the fourteen bytes are the image of the FH fields, and no other byte is covered by them. -/
theorem encfhStoresFileHeader : Obligations.EncfhStoresFileHeader := by
  refine ⟨rfl, fun s => ⟨_, exec_eq_of_effectOf rfl, encodeFields_complete_eq rfl, encfh_hbufBytes s, fun k hk => ?_⟩,
    fun s t hfh h => ?_⟩
  · exact encodeFields_complete_hbufByte tiles_fhFields s (.inr hk)
  · obtain rfl := eq_complete_of_effectOf rfl h
    rw [encfh_hbufBytes, hfh]
    rfl

/-- What ENCIH leaves in HBUF[14..53] (R107). -/
theorem encih_hbufBytes (s : State) : (encodeFields ihFields s).complete.hbufBytes 14 40 =
    bytesOf32 s.ih.size ++ bytesOf32 s.ih.width ++ bytesOf32 s.ih.height ++ bytesOf16 s.ih.planes ++
      bytesOf16 s.ih.bitCount ++ bytesOf32 s.ih.compression ++ bytesOf32 s.ih.sizeImage ++ bytesOf32 s.ih.xppm ++
      bytesOf32 s.ih.yppm ++ bytesOf32 s.ih.clrUsed ++ bytesOf32 s.ih.clrImportant := by
  rw [encodeFields_complete_hbufBytes pairwise_ihFields tiles_ihFields]
  simp only [← leBytes_four, ← leBytes_two_setWidth]
  rfl

/-- Settles O10: the forty bytes are the image of the IH fields, the height's own four among them, and no other byte is
covered by them. -/
theorem encihStoresInfoHeader : Obligations.EncihStoresInfoHeader := by
  refine ⟨rfl, fun s => ⟨_, exec_eq_of_effectOf rfl, encodeFields_complete_eq rfl, encih_hbufBytes s, fun k hk => ?_⟩,
    fun s t hheight h => ?_, fun s t hih h => ?_⟩
  · exact encodeFields_complete_hbufByte tiles_ihFields s hk
  · obtain rfl := eq_complete_of_effectOf rfl h
    rw [State.complete_hbufBytes,
      encodeFields_hbufBytes pairwise_ihFields s (f := ⟨.ihHeight, 22, 4⟩) (by decide), State.readField, hheight]
    rfl
  · obtain rfl := eq_complete_of_effectOf rfl h
    refine State.hbufBytes_split (n := 20) (m := 20) ((encih_hbufBytes s).trans ?_) rfl
    rw [hih]
    rfl

/-- What ENCCM leaves in HBUF[54..73] and in HBUF[74..137] (R108). -/
theorem enccm_hbufBytes (s : State) :
    (encodeFields cmFields s).complete.hbufBytes 54 20 =
      bytesOf32 s.cm.red ++ bytesOf32 s.cm.green ++ bytesOf32 s.cm.blue ++ bytesOf32 s.cm.alpha ++
        bytesOf32 s.cm.csType ∧
    (encodeFields cmFields s).complete.hbufBytes 74 64 =
      (List.finRange 16).flatMap fun i => bytesOf32 s.cm.unused[i] := by
  refine State.hbufBytes_split (n := 20) (m := 64) ?_ rfl
  rw [encodeFields_complete_hbufBytes pairwise_cmFields tiles_cmFields]
  simp only [← leBytes_four]
  rfl

/-- Settles O11: the masks and the tag are the first part of the image of the CM fields, each reserved word is the bytes
of its own field, and no other byte is covered by them. No mode is read. -/
theorem enccmStoresColorMaskHeader : Obligations.EnccmStoresColorMaskHeader := by
  refine ⟨rfl, fun s => ⟨_, exec_eq_of_effectOf rfl, encodeFields_complete_eq rfl, (enccm_hbufBytes s).1, fun i => ?_,
    fun k hk => ?_⟩, fun s t hcm h => ?_⟩
  · rw [State.complete_hbufBytes, ← leBytes_four]
    exact encodeFields_hbufBytes pairwise_cmFields s (cmUnused_mem_cmFields i)
  · exact encodeFields_complete_hbufByte tiles_cmFields s hk
  · obtain rfl := eq_complete_of_effectOf rfl h
    obtain ⟨hmasks, hunused⟩ := enccm_hbufBytes s
    rw [hmasks, hunused, hcm]
    exact ⟨rfl, rfl⟩

end Sys2Proof.Machine

/-! ## Family 41_stride: STRIDE's row layout (R120, R121) -/

namespace Sys2Proof.Machine

/-- The least multiple of 4 at or above a number, as StrideCalc computes it (R120). -/
theorem eq_of_leastMultipleOf4 {row A : Nat} (hA : LeastMultipleOf4 row A) : A = 4 * ((row + 3) / 4) := by
  obtain ⟨hdvd, hle, hleast⟩ := hA
  have hupper : A ≤ 4 * ((row + 3) / 4) := hleast _ (Nat.dvd_mul_right _ _) (by omega)
  omega

/-- StrideCalc for dimensions that are not negative, through the aligned stride `A` (R120). -/
theorem strideCalc_of_leastMultipleOf4 {w h : Word} {b : Half} {W H A : Nat} (hw : w.toInt = W) (hh : h.toInt = H)
    (hA : LeastMultipleOf4 (W * (b.toNat / 8)) A) :
    strideCalc w h b =
      if A > maxWord ∨ H * A > maxWord then .error ⟨.arithRange, .range⟩
      else .ok {
        channels := b.toNat / 8
        row := W * (b.toNat / 8)
        aligned := A
        pad := A - W * (b.toNat / 8)
        buf := W * H * (b.toNat / 8)
        disk := H * A } := by
  rw [strideCalc_nat hw hh, ← eq_of_leastMultipleOf4 hA]

/-- STRIDE raises StrideCalc's error (R121). -/
theorem exec_stride_of_error {s : State} {e : CmdError}
    (he : strideCalc s.ih.width s.ih.height s.ih.bitCount = .error e) : exec .stride s = .next (s.raiseError e) := by
  rw [exec, execStride, he]
  rfl

/-- STRIDE stores StrideCalc's six numbers and completes (R121). -/
theorem exec_stride_of_ok {s : State} {r : StrideResult}
    (hr : strideCalc s.ih.width s.ih.height s.ih.bitCount = .ok r) :
    exec .stride s = .next ({ s with sc := r.regs } : State).complete := by
  rw [exec, execStride, hr]
  rfl

/-- Settles O13: the two errors are StrideCalc's, and a success stores its six numbers, none of them wrapped. -/
theorem strideComputesRowLayout : Obligations.StrideComputesRowLayout := by
  refine ⟨rfl, fun s hneg => ?_, fun s W H A hw hh hA => ⟨fun hbig => ?_, fun hA32 hdisk32 => ?_⟩,
    fun s t hw hh hb h => ?_⟩
  · rw [← sext32_eq_toInt, ← sext32_eq_toInt] at hneg
    exact exec_stride_of_error (strideCalc_negDim hneg)
  · exact exec_stride_of_error ((strideCalc_of_leastMultipleOf4 hw hh hA).trans (if_pos hbig))
  · have hcalc := (strideCalc_of_leastMultipleOf4 hw hh hA).trans
      (if_neg (not_or.mpr ⟨Nat.not_lt.mpr hA32, Nat.not_lt.mpr hdisk32⟩))
    obtain ⟨hchannels, hrow, haligned, hpad, hbuf, hdisk⟩ := regs_toNat hcalc
    exact ⟨_, exec_stride_of_ok hcalc, rfl, hchannels, hrow, haligned, hpad, hbuf, hdisk, rfl⟩
  · have hcalc : strideCalc s.ih.width s.ih.height s.ih.bitCount = .ok ⟨3, 15, 16, 1, 30, 32⟩ := by
      rw [hw, hh, hb]
      rfl
    rw [exec_stride_of_ok hcalc] at h
    cases h
    exact ⟨rfl, rfl⟩

end Sys2Proof.Machine

/-! ## Family 42_validate: VALIDATE's verdict and NOP (R140, R141) -/

namespace Sys2Proof

/-- A word whose opcode is in the map, but which is not that command's word, has an illegal bit set (R72). -/
theorem decode_of_ne_encode {w : Word} {i : Instr} (h : commandOfOp (opField w) (aField w) = some i)
    (hw : w ≠ encode i) : decode w = .error .rsvBits := by
  refine decode_of_reserved h ?_
  by_contra hlegal
  obtain ⟨hrsv, hA⟩ := not_or.mp hlegal
  have hdec : decode w = .ok i :=
    decode_of_legal h (not_not.mp hrsv) fun ha => by_contra fun hop => hA ⟨ha, hop⟩
  exact hw (encode_eq_of_decode hdec).symm

end Sys2Proof

namespace Sys2Proof.Machine

/-! ### The verdict -/

/-- A check computed as a Bool fails where the proposition it checks does. -/
theorem not_eq_true_iff_not {b : Bool} {p : Prop} (h : b = true ↔ p) : (!b) = true ↔ ¬ p := by
  rw [Bool.not_eq_true', ← Bool.not_eq_true, h]

/-- A check made at 32 bits only, failing (R140). -/
theorem State.mode32_and_not_iff (s : State) {b : Bool} {p : Prop} (h : b = true ↔ p) :
    (s.mode32 && !b) = true ↔ s.ih.bitCount = 32 ∧ ¬ p := by
  rw [Bool.and_eq_true, s.mode32_iff, not_eq_true_iff_not h]

/-- VALIDATE's checks in the order of R140, each as a proposition about the registers. -/
theorem State.verdict_eq_ite (s : State) :
    s.verdict =
      if s.fh.type ≠ 0x4D42 then some ⟨.unrecognizedFormat, .sig⟩
      else if s.ih.bitCount = 32 ∧ s.ih.size.toNat < 124 then some ⟨.unrecognizedFormat, .ihTooSmall⟩
      else if s.ih.bitCount = 32 ∧ ¬ (s.cm.red = 0x00FF0000 ∧ s.cm.green = 0x0000FF00 ∧ s.cm.blue = 0x000000FF ∧
          s.cm.alpha = 0xFF000000) then some ⟨.unsupportedFormat, .mask⟩
      else if s.ih.bitCount = 32 ∧ s.cm.csType ≠ 0x73524742 then some ⟨.unsupportedFormat, .csType⟩
      else if s.ih.height.toInt < 0 then some ⟨.unsupportedOrientation, .negHeight⟩
      else if s.ih.bitCount ≠ 24 ∧ s.ih.bitCount ≠ 32 then some ⟨.unsupportedFormat, .bpp⟩
      else if ¬ (s.ih.compression = 0 ∨ (s.ih.compression = 3 ∧ s.ih.bitCount = 32)) then
        some ⟨.unsupportedFormat, .compression⟩
      else none := by
  have hsize : (s.mode32 && !s.sizeOk) = true ↔ s.ih.bitCount = 32 ∧ s.ih.size.toNat < 124 := by
    rw [s.mode32_and_not_iff s.sizeOk_iff, not_or, not_not, Nat.not_le, and_self_left]
  have horient : (!s.orientOk) = true ↔ s.ih.height.toInt < 0 := (not_eq_true_iff_not s.orientOk_iff).trans Int.not_le
  have hbpp : (!s.bppOk) = true ↔ s.ih.bitCount ≠ 24 ∧ s.ih.bitCount ≠ 32 :=
    (not_eq_true_iff_not s.bppOk_iff).trans not_or
  exact
    if_congr (not_eq_true_iff_not s.sigOk_iff) rfl <|
    if_congr hsize rfl <|
    if_congr (s.mode32_and_not_iff s.maskOk_iff) rfl <|
    if_congr (s.mode32_and_not_iff s.csOk_iff) rfl <|
    if_congr horient rfl <|
    if_congr hbpp rfl <|
    if_congr (not_eq_true_iff_not s.compOk_iff) rfl rfl

/-- The STATUS a verdict leaves: an error's report, or CODE and DETAIL 0 and STICKY kept (R30, R140). -/
def Status.afterVerdict (t : Status) : Option CmdError → Status
  | some e => { code := e.code.bits, sticky := true, detail := e.detail.bits }
  | none => { code := 0, sticky := t.sticky, detail := 0 }

/-- VALIDATE writes its verdict to STATUS, and nothing else (R140). -/
theorem exec_validate (s : State) :
    exec .validate s = .next { s with status := s.status.afterVerdict s.verdict } := by
  rw [exec, execValidate]
  cases s.verdict <;> rfl

/-- The headers are accepted where every check of R140 passes. -/
theorem State.verdict_eq_none {s : State} (hsig : s.sigOk = true) (hsize : s.sizeOk = true) (hmask : s.maskOk = true)
    (hcs : s.csOk = true) (horient : s.orientOk = true) (hbpp : s.bppOk = true) (hcomp : s.compOk = true) :
    s.verdict = none := by
  simp [State.verdict, hsig, hsize, hmask, hcs, horient, hbpp, hcomp]

/-- At 32 bits wrong masks are reported once the signature and biSize pass (R140). -/
theorem State.verdict_eq_mask {s : State} (hsig : s.sigOk = true) (hsize : s.sizeOk = true) (hmode : s.mode32 = true)
    (hmask : s.maskOk = false) : s.verdict = some ⟨.unsupportedFormat, .mask⟩ := by
  simp [State.verdict, hsig, hsize, hmode, hmask]

/-! ### After SYNTH -/

/-- An error's report never reads as success (R150, R152). -/
theorem State.raiseError_code_ne_zero (s : State) {e : CmdError} (he : e.code ≠ .ok) :
    (s.raiseError e).status.code ≠ 0 :=
  fun h => he (ErrorCode.bits_eq_zero.mp h)

/-- A SYNTH that reports CODE 0 has completed (R123). -/
theorem eq_synthState_of_code_zero {a : Bool} {s t : State} (h : exec (.synth a) s = .next t)
    (hcode : t.status.code = 0) :
    ∃ r f, 0 < s.heightZ ∧ t = (synthState a s r f).complete := by
  rcases execSynth_cases h with ⟨r, f, -, hheight, -, rfl⟩ | ⟨-, rfl⟩ | ⟨-, -, rfl⟩ | ⟨-, -, -, rfl⟩
  · exact ⟨r, f, hheight, rfl⟩
  all_goals exact absurd hcode (s.raiseError_code_ne_zero (by decide))

/-- VALIDATE accepts the headers a 32-bit SYNTH writes (R123, R140). -/
theorem verdict_synthState {s : State} (hheight : 0 < s.heightZ) (r : StrideResult) (f : Nat) :
    (synthState true s r f).complete.verdict = none :=
  State.verdict_eq_none rfl rfl rfl rfl (decide_eq_true hheight.le) rfl rfl

/-- Settles O20: the chain of checks maps to the chain of reports, and after a 32-bit SYNTH every check passes until a
mask is overwritten. -/
theorem validateReportsFirstFailure : Obligations.ValidateReportsFirstFailure := by
  refine ⟨rfl, fun s => ?_, fun s t h hcode => ?_⟩
  · rw [exec_validate, s.verdict_eq_ite]
    simp only [apply_ite s.status.afterVerdict]
    rfl
  · obtain ⟨r, f, hheight, rfl⟩ := eq_synthState_of_code_zero h hcode
    refine ⟨⟨_, exec_validate _, ?_⟩, _, exec_validate _, ?_⟩
    · rw [verdict_synthState hheight]
      rfl
    · rw [State.verdict_eq_mask rfl rfl rfl rfl]
      exact ⟨rfl, rfl⟩

/-! ### NOP -/

/-- Settles O21: NOP completes with the state as it was, and its opcode in any word but 0 has an illegal bit. -/
theorem nopClearsReport : Obligations.NopClearsReport := by
  refine ⟨rfl, fun s => exec_eq_of_effectOf rfl, fun w s hop hw => ?_, fun s t hword h => ?_⟩
  · have hmap : commandOfOp (opField w) (aField w) = some .nop := by
      rw [show opField w = 0x00 from hop]
      rfl
    exact executeWord_of_decode_error (decode_of_ne_encode hmap hw) s
  · obtain rfl := eq_complete_of_effectOf rfl h
    have hsticky : s.status.sticky = true := by
      rw [← s.status.word_sticky, hword]
      rfl
    show Status.word { code := 0, sticky := s.status.sticky, detail := 0 } = _
    rw [hsticky]
    rfl

end Sys2Proof.Machine

/-! ## Family other: command words, decoded and run (R71, R72, R73) -/

namespace Sys2Proof

/-- Every command's word decodes to it (R71). -/
theorem decode_encode : ∀ i : Instr, decode (encode i) = .ok i
  | .nop | .decfh | .decih | .deccm | .encfh | .encih | .enccm | .stride | .norm | .validate => rfl
  | .synth false | .synth true => rfl

/-- A word decodes to a command exactly when it is the command's word (R71). -/
theorem decode_eq_ok_iff {w : Word} {i : Instr} : decode w = .ok i ↔ w = encode i :=
  ⟨fun h => (encode_eq_of_decode h).symm, fun h => h ▸ decode_encode i⟩

/-- The legal words are the words of the commands (R73). -/
theorem mem_legalWords_iff {w : Word} : w ∈ legalWords ↔ ∃ i, w = encode i := by
  constructor
  · intro h
    have hwords : legalWords = [Instr.nop, .decfh, .decih, .deccm, .encfh, .encih, .enccm, .stride, .norm, .synth false,
      .synth true, .validate].map encode := rfl
    rw [hwords] at h
    obtain ⟨i, -, hi⟩ := List.mem_map.mp h
    exact ⟨i, hi.symm⟩
  · rintro ⟨i, rfl⟩
    cases i with
    | synth a => cases a <;> decide
    | _ => decide

/-- Settles O1: decoding inverts `encode`, and the legal words are the values of `encode`. -/
theorem decodeEncodeExactly : Obligations.DecodeEncodeExactly := by
  refine ⟨fun w i => decode_eq_ok_iff, fun w => ?_, rfl, by decide⟩
  simp only [decode_eq_ok_iff, mem_legalWords_iff]

/-- Settles O3: the seven words are their commands' words; 0x104 has no opcode of the map, and 0x121 has NORM's. -/
theorem tableWordsDecode : Obligations.TableWordsDecode :=
  ⟨decode_encode .nop, decode_encode .deccm, decode_encode .encfh, decode_encode .norm, decode_encode (.synth false),
    decode_encode (.synth true), decode_encode .validate, decode_of_commandOfOp_none rfl,
    decode_of_reserved (i := .norm) rfl (.inr ⟨rfl, by decide⟩)⟩

/-- A 32-bit word as a table word is itself. -/
theorem tableWord_toNat (w : Word) : tableWord 32 w.toNat = w := by
  rw [tableWord, Nat.mod_eq_of_lt w.isLt, BitVec.ofNat_toNat, BitVec.setWidth_eq]

end Sys2Proof

namespace Sys2Proof.Machine

/-- A step on the CMD write of a command's word is the command, the write acknowledged (R32, R72). -/
theorem step_of_pending_cmdWrite {s : State} {w : Word} {i : Instr} {rest : List HostEvent}
    (hp : s.pending = cmdWrite w :: rest) (hw : decode w = .ok i) :
    step s = exec i { s with pending := rest, response := .ack } := by
  rw [step_eq hp, hostEvent_cmdWrite, executeWord_of_decode_ok hw]
  rfl

/-- Settles O4: the step of a CMD write is its decoded command, and `withFetchWord` is such a write. -/
theorem stepRunsDecodedCommand : Obligations.StepRunsDecodedCommand := by
  refine ⟨fun s w i rest hp hw => step_of_pending_cmdWrite hp hw, fun s i => ?_⟩
  have hp : (s.withFetchWord 32 (encode i).toNat).pending = cmdWrite (encode i) :: s.pending := by
    rw [State.withFetchWord, tableWord_toNat, State.issue_pending]
  exact step_of_pending_cmdWrite hp (decode_encode i)

end Sys2Proof.Machine

/-! ## Family other: what each command does, as two relations -/

namespace Sys2Proof.Machine

/-! ### NORM and SYNTH, forwards -/

/-- NORM raises the error of its layout (R122). -/
theorem exec_norm_of_error {s : State} {e : CmdError}
    (he : layoutCalc s.ih.width s.ih.height s.ih.bitCount s.mode32 = .error e) :
    exec .norm s = .next (s.raiseError e) := by
  rw [exec, execNorm, he]
  rfl

/-- NORM stores its layout and completes (R122). -/
theorem exec_norm_of_ok {s : State} {r : StrideResult} {f : Nat}
    (hr : layoutCalc s.ih.width s.ih.height s.ih.bitCount s.mode32 = .ok (r, f)) :
    exec .norm s = .next (normState s r f).complete := by
  rw [exec, execNorm, hr]
  rfl

/-- SYNTH tests the width first (R123). -/
theorem exec_synth_of_width_nonpos {s : State} (hw : s.widthZ ≤ 0) (a : Bool) :
    exec (.synth a) s = .next (s.raiseError ⟨.invalidDimensions, .widthNonpos⟩) := by
  rw [exec, execSynth, if_pos hw]
  rfl

/-- SYNTH tests the height second (R123). -/
theorem exec_synth_of_height_nonpos {s : State} (hw : 0 < s.widthZ) (hh : s.heightZ ≤ 0) (a : Bool) :
    exec (.synth a) s = .next (s.raiseError ⟨.invalidDimensions, .heightNonpos⟩) := by
  rw [exec, execSynth, if_neg hw.not_ge, if_pos hh]
  rfl

/-- SYNTH of a positive width and height raises the error of its layout (R123). -/
theorem exec_synth_of_error {a : Bool} {s : State} {e : CmdError} (hw : 0 < s.widthZ) (hh : 0 < s.heightZ)
    (he : layoutCalc s.ih.width s.ih.height (bppOfA a) a = .error e) :
    exec (.synth a) s = .next (s.raiseError e) := by
  rw [exec, execSynth, if_neg hw.not_ge, if_neg hh.not_ge, he]
  rfl

/-- SYNTH writes the headers of its layout and completes (R123). -/
theorem exec_synth_of_ok {a : Bool} {s : State} {r : StrideResult} {f : Nat} (hw : 0 < s.widthZ) (hh : 0 < s.heightZ)
    (hr : layoutCalc s.ih.width s.ih.height (bppOfA a) a = .ok (r, f)) :
    exec (.synth a) s = .next (synthState a s r f).complete := by
  rw [exec, execSynth, if_neg hw.not_ge, if_neg hh.not_ge, hr]
  rfl

/-! ### The two ways a command ends -/

/-- The commands that encode a header, with its fields (R106 to R108). -/
inductive Encodes : Instr → List Field → Prop where
  | encfh : Encodes .encfh fhFields
  | encih : Encodes .encih ihFields
  | enccm : Encodes .enccm cmFields

/-- The command computes the state `u` from `s`, and completes with it (R9). -/
inductive Completes : Instr → State → State → Prop where
  | nop (s : State) : Completes .nop s s
  | decfh (s : State) : Completes .decfh s { s with fh := .ofBytes s.hbufByte }
  | decih (s : State) : Completes .decih s { s with ih := .ofBytes s.hbufByte }
  | deccm (s : State) : Completes .deccm s { s with cm := .ofBytes s.hbufByte }
  | enc {i : Instr} {L : List Field} (hi : Encodes i L) (s : State) : Completes i s (encodeFields L s)
  | stride {s : State} {r : StrideResult} (hr : strideCalc s.ih.width s.ih.height s.ih.bitCount = .ok r) :
    Completes .stride s { s with sc := r.regs }
  | norm {s : State} {r : StrideResult} {f : Nat}
    (hr : layoutCalc s.ih.width s.ih.height s.ih.bitCount s.mode32 = .ok (r, f)) :
    Completes .norm s (normState s r f)
  | synth {a : Bool} {s : State} {r : StrideResult} {f : Nat} (hw : 0 < s.widthZ) (hh : 0 < s.heightZ)
    (hr : layoutCalc s.ih.width s.ih.height (bppOfA a) a = .ok (r, f)) :
    Completes (.synth a) s (synthState a s r f)
  | validate {s : State} (hv : s.verdict = none) : Completes .validate s s

/-- The command raises the error `e` in `s` (R152). -/
inductive Fails : Instr → State → CmdError → Prop where
  | stride {s : State} {e : CmdError} (he : strideCalc s.ih.width s.ih.height s.ih.bitCount = .error e) :
    Fails .stride s e
  | norm {s : State} {e : CmdError}
    (he : layoutCalc s.ih.width s.ih.height s.ih.bitCount s.mode32 = .error e) : Fails .norm s e
  | width {s : State} (hw : s.widthZ ≤ 0) (a : Bool) : Fails (.synth a) s ⟨.invalidDimensions, .widthNonpos⟩
  | height {s : State} (hw : 0 < s.widthZ) (hh : s.heightZ ≤ 0) (a : Bool) :
    Fails (.synth a) s ⟨.invalidDimensions, .heightNonpos⟩
  | synth {a : Bool} {s : State} {e : CmdError} (hw : 0 < s.widthZ) (hh : 0 < s.heightZ)
    (he : layoutCalc s.ih.width s.ih.height (bppOfA a) a = .error e) : Fails (.synth a) s e
  | validate {s : State} {e : CmdError} (hv : s.verdict = some e) : Fails .validate s e

theorem Encodes.exec_eq {i : Instr} {L : List Field} (h : Encodes i L) (s : State) :
    exec i s = .next (encodeFields L s).complete := by
  cases h <;> rfl

theorem Completes.exec_eq {i : Instr} {s u : State} (h : Completes i s u) : exec i s = .next u.complete := by
  cases h with
  | nop => rfl
  | decfh => exact exec_decfh s
  | decih => exact exec_decih s
  | deccm => exact exec_deccm s
  | enc hi => exact hi.exec_eq s
  | stride hr => exact exec_stride_of_ok hr
  | norm hr => exact exec_norm_of_ok hr
  | synth hw hh hr => exact exec_synth_of_ok hw hh hr
  | validate hv =>
    rw [exec_validate, hv]
    rfl

theorem Fails.exec_eq {i : Instr} {s : State} {e : CmdError} (h : Fails i s e) :
    exec i s = .next (s.raiseError e) := by
  cases h with
  | stride he => exact exec_stride_of_error he
  | norm he => exact exec_norm_of_error he
  | width hw a => exact exec_synth_of_width_nonpos hw a
  | height hw hh a => exact exec_synth_of_height_nonpos hw hh a
  | synth hw hh he => exact exec_synth_of_error hw hh he
  | validate hv =>
    rw [exec_validate, hv]
    rfl

/-- Every command completes or fails, on every state (R174, R179). -/
theorem completes_or_fails (i : Instr) (s : State) : (∃ u, Completes i s u) ∨ ∃ e, Fails i s e := by
  cases i with
  | nop => exact .inl ⟨_, .nop s⟩
  | decfh => exact .inl ⟨_, .decfh s⟩
  | decih => exact .inl ⟨_, .decih s⟩
  | deccm => exact .inl ⟨_, .deccm s⟩
  | encfh => exact .inl ⟨_, .enc .encfh s⟩
  | encih => exact .inl ⟨_, .enc .encih s⟩
  | enccm => exact .inl ⟨_, .enc .enccm s⟩
  | stride =>
    cases hr : strideCalc s.ih.width s.ih.height s.ih.bitCount with
    | error e => exact .inr ⟨e, .stride hr⟩
    | ok r => exact .inl ⟨_, .stride hr⟩
  | norm =>
    cases hr : layoutCalc s.ih.width s.ih.height s.ih.bitCount s.mode32 with
    | error e => exact .inr ⟨e, .norm hr⟩
    | ok p => exact .inl ⟨_, .norm hr⟩
  | synth a =>
    by_cases hw : 0 < s.widthZ
    · by_cases hh : 0 < s.heightZ
      · cases hr : layoutCalc s.ih.width s.ih.height (bppOfA a) a with
        | error e => exact .inr ⟨e, .synth hw hh hr⟩
        | ok p => exact .inl ⟨_, .synth hw hh hr⟩
      · exact .inr ⟨_, .height hw (not_lt.mp hh) a⟩
    · exact .inr ⟨_, .width (not_lt.mp hw) a⟩
  | validate =>
    cases hv : s.verdict with
    | none => exact .inl ⟨_, .validate hv⟩
    | some e => exact .inr ⟨e, .validate hv⟩

/-- What a command's next state is. -/
theorem exec_next_cases {i : Instr} {s t : State} (h : exec i s = .next t) :
    (∃ u, Completes i s u ∧ t = u.complete) ∨ ∃ e, Fails i s e ∧ t = s.raiseError e := by
  rcases completes_or_fails i s with ⟨u, hu⟩ | ⟨e, he⟩
  · exact .inl ⟨u, hu, Host.Outcome.next.inj (h.symm.trans hu.exec_eq)⟩
  · exact .inr ⟨e, he, Host.Outcome.next.inj (h.symm.trans he.exec_eq)⟩

/-! ### Reports -/

/-- The reports a command can fail with (R121 to R123, R140). -/
def reportsOf : Instr → List (ErrorCode × Detail)
  | .stride | .norm => [(.arithRange, .negDim), (.arithRange, .range)]
  | .synth _ => [(.invalidDimensions, .widthNonpos), (.invalidDimensions, .heightNonpos), (.arithRange, .range)]
  | .validate => [(.unrecognizedFormat, .sig), (.unrecognizedFormat, .ihTooSmall), (.unsupportedFormat, .mask),
      (.unsupportedFormat, .csType), (.unsupportedOrientation, .negHeight), (.unsupportedFormat, .bpp),
      (.unsupportedFormat, .compression)]
  | _ => []

theorem Fails.mem_reportsOf {i : Instr} {s : State} {e : CmdError} (h : Fails i s e) :
    (e.code, e.detail) ∈ reportsOf i := by
  cases h with
  | stride he => rcases strideCalc_error he with ⟨-, rfl⟩ | ⟨-, -, rfl⟩ <;> decide
  | norm he => rcases layoutCalc_error he with ⟨-, rfl⟩ | ⟨-, -, rfl⟩ <;> decide
  | width => exact List.mem_cons_self
  | height => exact List.mem_cons_of_mem _ List.mem_cons_self
  | synth hw hh he =>
    rcases layoutCalc_error he with ⟨hneg | hneg, -⟩ | ⟨-, -, rfl⟩
    · exact absurd hneg hw.not_gt
    · exact absurd hneg hh.not_gt
    · simp [reportsOf]
  | validate hv => exact List.mem_map_of_mem (f := fun e : CmdError => (e.code, e.detail)) (State.verdict_mem hv)

/-- Every report of a failing command is one of R151's, and none reads as success. -/
theorem legal_of_mem_reportsOf (i : Instr) : ∀ p ∈ reportsOf i, p ∈ legalReports ∧ p.1 ≠ .ok := by
  cases i with
  | stride | norm | validate => decide
  | synth a => exact (by decide : ∀ p ∈ reportsOf (.synth false), p ∈ legalReports ∧ p.1 ≠ .ok)
  | _ => exact fun _ hp => nomatch hp

/-- What a word's next state is: what its command completes with, or a report and nothing else (R72, R152). -/
theorem executeWord_next_cases {w : Word} {s t : State} (h : executeWord w s = .next t) :
    (∃ i u, w = encode i ∧ Completes i s u ∧ t = u.complete) ∨
      ∃ e : CmdError, t = s.raiseError e ∧ (e.code, e.detail) ∈ legalReports ∧ e.code ≠ .ok := by
  rcases executeWord_cases h with ⟨e, -, rfl⟩ | ⟨i, hi, hexec⟩
  · refine .inr ⟨_, rfl, ?_⟩
    cases e <;> decide
  · rcases exec_next_cases hexec with ⟨u, hu, rfl⟩ | ⟨e, he, rfl⟩
    · exact .inl ⟨i, u, decode_eq_ok_iff.mp hi, hu, rfl⟩
    · exact .inr ⟨e, rfl, legal_of_mem_reportsOf i _ he.mem_reportsOf⟩

/-- Every word executes to a next state (R174, R179). -/
theorem executeWord_next (w : Word) (s : State) : ∃ t, executeWord w s = .next t := by
  cases hw : decode w with
  | error e => exact ⟨_, executeWord_of_decode_error hw s⟩
  | ok i =>
    rw [executeWord_of_decode_ok hw]
    rcases completes_or_fails i s with ⟨u, hu⟩ | ⟨e, he⟩
    · exact ⟨_, hu.exec_eq⟩
    · exact ⟨_, he.exec_eq⟩

/-! ### What a command that completes leaves alone -/

theorem Completes.pending_eq {i : Instr} {s u : State} (h : Completes i s u) : u.pending = s.pending := by
  cases h with
  | enc => exact encodeFields_pending _ s
  | _ => rfl

theorem Completes.response_eq {i : Instr} {s u : State} (h : Completes i s u) : u.response = s.response := by
  cases h with
  | enc => exact encodeFields_response _ s
  | _ => rfl

theorem Completes.resets_eq {i : Instr} {s u : State} (h : Completes i s u) : u.resets = s.resets := by
  cases h with
  | enc => exact encodeFields_resets _ s
  | _ => rfl

/-- The three fields of the model's own are no command's (logs 1, 2, 5). -/
theorem executeWord_frame {w : Word} {s t : State} (h : executeWord w s = .next t) :
    t.pending = s.pending ∧ t.response = s.response ∧ t.resets = s.resets := by
  rcases executeWord_next_cases h with ⟨i, u, -, hu, rfl⟩ | ⟨e, rfl, -, -⟩
  · exact ⟨hu.pending_eq, hu.response_eq, hu.resets_eq⟩
  · exact ⟨rfl, rfl, rfl⟩

/-! ### The obligations -/

/-- Settles O5: a word executes to a next state, and neither a completed command nor a report touches the three
fields. -/
theorem everyCommandWordCompletes : Obligations.EveryCommandWordCompletes := by
  intro w s
  obtain ⟨t, ht⟩ := executeWord_next w s
  exact ⟨t, ht, executeWord_frame ht⟩

/-- Settles O36: CODE not 0 excludes a completed command, and a report is written to STATUS alone. -/
theorem failedCommandChangesOnlyStatus : Obligations.FailedCommandChangesOnlyStatus := by
  intro w s t h hcode
  rcases executeWord_next_cases h with ⟨i, u, -, -, rfl⟩ | ⟨e, rfl, -, -⟩
  · exact absurd rfl hcode
  · rfl

/-- Settles O37: a completed command leaves code 0, and a failing one a code of its own reports. -/
theorem commandsReportTheirOwnCodes : Obligations.CommandsReportTheirOwnCodes := by
  intro i s t h
  rcases exec_next_cases h with ⟨u, -, rfl⟩ | ⟨e, he, rfl⟩
  · simp
  · have hmem := he.mem_reportsOf
    refine ⟨fun hi => ?_, fun hi => ?_, ?_, ?_⟩
    · cases he <;> simp at hi
    · have hreports : ∀ p ∈ reportsOf .stride, p.1.bits ∈ ([0, 7] : List (BitVec 4)) := by decide
      simp only [List.mem_cons, List.not_mem_nil, or_false] at hi
      rcases hi with rfl | rfl <;> exact hreports _ hmem
    · rintro ⟨a, rfl⟩
      have hreports : ∀ p ∈ reportsOf (.synth false), p.1.bits ∈ ([0, 5, 7] : List (BitVec 4)) := by decide
      exact hreports _ hmem
    · rintro rfl
      have hreports : ∀ p ∈ reportsOf .validate, p.1.bits ∈ ([0, 2, 3, 4] : List (BitVec 4)) := by decide
      exact hreports _ hmem

end Sys2Proof.Machine

/-! ## Family other: what a step can change, and by which event (R22, R28, R30, R152, R153, R175 to R177) -/

namespace Sys2Proof.Machine

/-! ### One step, seen through one part of the state -/

/-- A part of the state that neither the bus's answer nor the host's events to come are in (logs 1, 2). -/
def BusBlind {α : Type} (f : State → α) : Prop := ∀ s r p, f { s with response := r, pending := p } = f s

/-- Where a step changes a part of the state, its event was a reset, a write whose own effect changes that part, or a
CMD write of a word that executes to the new state, from one with that part as it was (R10). -/
theorem step_changes {α : Type} {f : State → α} (hf : BusBlind f) {s t : State} (h : step s = .next t)
    (hne : f t ≠ f s) :
    ∃ rest, (s.pending = .reset :: rest ∧ f t = f s.pulseReset) ∨
      (∃ n a v, s.pending = .write n a v :: rest ∧ a.toNat + n.bytes ≤ Config.hbufSize ∧
        f t = f (s.memWrite a.toNat n.bytes v)) ∨
      (∃ (a : Addr) (r : FieldReg) (v : Word), s.pending = .write .word a v :: rest ∧ r.addr = a.toNat ∧
        f t = f (s.writeField r v)) ∨
      (∃ v, s.pending = .write .word 0x304 v :: rest ∧ f t = f (s.writeStatus v)) ∨
      (∃ w u, s.pending = .write .word 0x300 w :: rest ∧ executeWord w u = .next t ∧ f u = f s) := by
  obtain ⟨e, rest, hp, he⟩ := step_cases h
  refine ⟨rest, ?_⟩
  rcases hostEvent_cases he with ⟨n, a, v, rfl, rfl⟩ | ⟨n, a, v, rfl, ha, rfl⟩ | ⟨a, r, v, rfl, hr, rfl⟩ |
    ⟨v, rfl, rfl⟩ | ⟨w, rfl, hw⟩ | ⟨rfl, rfl⟩
  · exact absurd (hf s (.data v) rest) hne
  · exact .inr (.inl ⟨n, a, v, hp, ha, hf (s.memWrite a.toNat n.bytes v) .ack rest⟩)
  · refine .inr (.inr (.inl ⟨a, r, v, hp, hr, ?_⟩))
    rw [← hf (s.writeField r v) .ack rest]
    cases r <;> rfl
  · refine .inr (.inr (.inr (.inl ⟨v, hp, ?_⟩)))
    rw [← hf (s.writeStatus v) .ack rest, State.writeStatus_eq, State.writeStatus_eq]
    rfl
  · exact .inr (.inr (.inr (.inr ⟨w, _, hp, hw, hf s .ack rest⟩)))
  · exact .inl ⟨hp, hf s.pulseReset .none rest⟩

/-! ### Which commands change which part -/

theorem Completes.mem_of_fh_ne {i : Instr} {s u : State} (h : Completes i s u) (hne : u.fh ≠ s.fh) :
    encode i ∈ ([0x01, 0x21, 0x22, 0x122] : List Word) := by
  cases h with
  | decfh | norm => decide
  | @synth a => cases a <;> decide
  | enc => exact absurd (encodeFields_fh _ s) hne
  | _ => exact absurd rfl hne

theorem Completes.mem_of_ih_ne {i : Instr} {s u : State} (h : Completes i s u) (hne : u.ih ≠ s.ih) :
    encode i ∈ ([0x02, 0x21, 0x22, 0x122] : List Word) := by
  cases h with
  | decih | norm => decide
  | @synth a => cases a <;> decide
  | enc => exact absurd (encodeFields_ih _ s) hne
  | _ => exact absurd rfl hne

theorem Completes.mem_of_cm_ne {i : Instr} {s u : State} (h : Completes i s u) (hne : u.cm ≠ s.cm) :
    encode i ∈ ([0x03, 0x22, 0x122] : List Word) := by
  cases h with
  | deccm => decide
  | @synth a => cases a <;> decide
  | enc => exact absurd (encodeFields_cm _ s) hne
  | _ => exact absurd rfl hne

theorem Completes.mem_of_sc_ne {i : Instr} {s u : State} (h : Completes i s u) (hne : u.sc ≠ s.sc) :
    encode i ∈ ([0x20, 0x21, 0x22, 0x122] : List Word) := by
  cases h with
  | stride | norm => decide
  | @synth a => cases a <;> decide
  | enc => exact absurd (encodeFields_sc _ s) hne
  | _ => exact absurd rfl hne

/-- The bytes each ENC* command fills (R106 to R108). -/
theorem Encodes.tiles {i : Instr} {L : List Field} (h : Encodes i L) :
    (i = .encfh ∧ tiles L 0 14) ∨ (i = .encih ∧ tiles L 14 40) ∨ (i = .enccm ∧ tiles L 54 84) := by
  cases h with
  | encfh => exact .inl ⟨rfl, tiles_fhFields⟩
  | encih => exact .inr (.inl ⟨rfl, tiles_ihFields⟩)
  | enccm => exact .inr (.inr ⟨rfl, tiles_cmFields⟩)

/-- Where an ENC* command changes a byte, the byte is one its fields fill. -/
theorem bounds_of_encodeFields_ne {L : List Field} {off n : Nat} (hL : tiles L off n) {s : State} {k : Nat}
    (hne : (encodeFields L s).hbufByte k ≠ s.hbufByte k) : off ≤ k ∧ k < off + n :=
  bounds_of_covers hL (by_contra fun hk => hne (encodeFields_hbufByte_of_not_covers s hk))

theorem Completes.cases_of_hbufByte_ne {i : Instr} {s u : State} (h : Completes i s u) {k : Nat}
    (hne : u.hbufByte k ≠ s.hbufByte k) :
    (k < 14 ∧ i = .encfh) ∨ (14 ≤ k ∧ k < 54 ∧ i = .encih) ∨ (54 ≤ k ∧ k < 138 ∧ i = .enccm) := by
  cases h with
  | enc hi =>
    rcases hi.tiles with ⟨rfl, hL⟩ | ⟨rfl, hL⟩ | ⟨rfl, hL⟩ <;> obtain ⟨hlo, hhi⟩ := bounds_of_encodeFields_ne hL hne
    · exact .inl ⟨hhi, rfl⟩
    · exact .inr (.inl ⟨hlo, hhi, rfl⟩)
    · exact .inr (.inr ⟨hlo, hhi, rfl⟩)
  | _ => exact absurd rfl hne

/-! ### Which registers change which header -/

theorem FieldReg.addr_of_fh_ne {s : State} {r : FieldReg} {v : Word} (hne : (s.writeField r v).fh ≠ s.fh) :
    0x100 ≤ r.addr ∧ r.addr ≤ 0x110 := by
  cases r with
  | fhType | fhSize | fhRes1 | fhRes2 | fhOffBits => decide
  | _ => exact absurd rfl hne

theorem FieldReg.addr_of_ih_ne {s : State} {r : FieldReg} {v : Word} (hne : (s.writeField r v).ih ≠ s.ih) :
    0x120 ≤ r.addr ∧ r.addr ≤ 0x148 := by
  cases r with
  | ihSize | ihWidth | ihHeight | ihPlanes | ihBitCount | ihCompression | ihSizeImage | ihXppm | ihYppm | ihClrUsed
  | ihClrImportant => decide
  | _ => exact absurd rfl hne

theorem FieldReg.addr_of_cm_ne {s : State} {r : FieldReg} {v : Word} (hne : (s.writeField r v).cm ≠ s.cm) :
    0x160 ≤ r.addr ∧ r.addr ≤ 0x1BC := by
  cases r with
  | cmRed | cmGreen | cmBlue | cmAlpha | cmCsType => decide
  | cmUnused i =>
    rw [FieldReg.addr]
    omega
  | _ => exact absurd rfl hne

/-! ### The obligations -/

/-- Settles O39: no write of the host's changes SC, a report changes STATUS only, and three commands write SC. -/
theorem strideResultsGoStale : Obligations.StrideResultsGoStale := by
  intro s t h hne
  obtain ⟨rest, ⟨hp, -⟩ | ⟨n, a, v, -, -, hc⟩ | ⟨a, r, v, -, -, hc⟩ | ⟨v, -, hc⟩ | ⟨w, u, hp, hw, hu⟩⟩ :=
    step_changes (f := State.sc) (fun _ _ _ => rfl) h hne
  · exact ⟨rest, .inl hp⟩
  · exact absurd hc hne
  · exact absurd (hc.trans (s.writeField_sc r v)) hne
  · exact absurd (hc.trans (by rw [s.writeStatus_eq])) hne
  · rw [← hu] at hne
    rcases executeWord_next_cases hw with ⟨i, x, rfl, hx, rfl⟩ | ⟨e, rfl, -, -⟩
    · exact ⟨rest, .inr ⟨_, hx.mem_of_sc_ne hne, hp, rfl⟩⟩
    · exact absurd rfl hne

/-- Settles O40: MemWrite changes the bytes it covers, an ENC* command those its fields fill, and
nothing else a byte. -/
theorem hbufWrittenOnlyByHostAndEncode : Obligations.HbufWrittenOnlyByHostAndEncode := by
  intro s t k h hne
  obtain ⟨rest, ⟨hp, -⟩ | ⟨n, a, v, hp, ha, hc⟩ | ⟨a, r, v, -, -, hc⟩ | ⟨v, -, hc⟩ | ⟨w, u, hp, hw, hu⟩⟩ :=
    step_changes (f := fun s => s.hbufByte k) (fun _ _ _ => rfl) h hne
  · exact ⟨rest, .inl hp⟩
  · have hk : a.toNat ≤ k ∧ k < a.toNat + n.bytes := by
      by_contra hk
      exact hne (hc.trans ((s.memWrite_hbufByte _ _ v k).trans (if_neg hk)))
    exact ⟨rest, .inr (.inl ⟨n, a, v, hp, hk.1, hk.2, ha⟩)⟩
  · exact absurd (hc.trans (s.writeField_hbufByte r v k)) hne
  · exact absurd (hc.trans (by rw [s.writeStatus_eq]; rfl)) hne
  · rw [← hu] at hne
    rcases executeWord_next_cases hw with ⟨i, x, rfl, hx, rfl⟩ | ⟨e, rfl, -, -⟩
    · rcases hx.cases_of_hbufByte_ne hne with ⟨hk, rfl⟩ | ⟨hlo, hhi, rfl⟩ | ⟨hlo, hhi, rfl⟩
      · exact ⟨rest, .inr (.inr (.inl ⟨hk, hp⟩))⟩
      · exact ⟨rest, .inr (.inr (.inr (.inl ⟨hlo, hhi, hp⟩)))⟩
      · exact ⟨rest, .inr (.inr (.inr (.inr ⟨hlo, hhi, hp⟩)))⟩
    · exact absurd rfl hne

/-- A header's part of the state changes at reset, by a host write of one of its registers, or by one of the commands
that write it (R22, R176). -/
theorem step_changes_header {α : Type} {f : State → α} {lo hi : Nat} {words : List Word} (hf : BusBlind f)
    (hstatus : ∀ (s : State) c, f { s with status := c } = f s)
    (hmem : ∀ (s : State) m, f { s with hbuf := m } = f s)
    (hfield : ∀ {s : State} {r : FieldReg} {v : Word}, f (s.writeField r v) ≠ f s → lo ≤ r.addr ∧ r.addr ≤ hi)
    (hcmd : ∀ {i : Instr} {s u : State}, Completes i s u → f u ≠ f s → encode i ∈ words)
    {s t : State} (h : step s = .next t) (hne : f t ≠ f s) :
    ∃ rest, s.pending = .reset :: rest ∨
      (∃ a v, s.pending = .write .word a v :: rest ∧ lo ≤ a.toNat ∧ a.toNat ≤ hi) ∨
      ∃ w ∈ words, s.pending = .write .word 0x300 w :: rest := by
  obtain ⟨rest, ⟨hp, -⟩ | ⟨n, a, v, -, -, hc⟩ | ⟨a, r, v, hp, hr, hc⟩ | ⟨v, -, hc⟩ | ⟨w, u, hp, hw, hu⟩⟩ :=
    step_changes hf h hne
  · exact ⟨rest, .inl hp⟩
  · exact absurd (hc.trans (hmem s _)) hne
  · rw [hc] at hne
    exact ⟨rest, .inr (.inl ⟨a, v, hp, hr ▸ hfield hne⟩)⟩
  · exact absurd (hc.trans (by rw [s.writeStatus_eq, hstatus])) hne
  · rw [← hu] at hne
    rcases executeWord_next_cases hw with ⟨i, x, rfl, hx, rfl⟩ | ⟨e, rfl, -, -⟩
    · exact ⟨rest, .inr (.inr ⟨_, hcmd hx fun heq => hne ((hstatus x _).trans heq), hp⟩)⟩
    · exact absurd (hstatus u _) hne

/-- Settles O41: the same for each of the three headers, with its registers' addresses and its commands. -/
theorem fieldsWrittenOnlyByTheirCommands : Obligations.FieldsWrittenOnlyByTheirCommands := fun _ _ h =>
  ⟨step_changes_header (f := State.fh) (fun _ _ _ => rfl) (fun _ _ => rfl) (fun _ _ => rfl) FieldReg.addr_of_fh_ne
      Completes.mem_of_fh_ne h,
    step_changes_header (f := State.ih) (fun _ _ _ => rfl) (fun _ _ => rfl) (fun _ _ => rfl) FieldReg.addr_of_ih_ne
      Completes.mem_of_ih_ne h,
    step_changes_header (f := State.cm) (fun _ _ _ => rfl) (fun _ _ => rfl) (fun _ _ => rfl) FieldReg.addr_of_cm_ne
      Completes.mem_of_cm_ne h⟩

/-- A word executed keeps STICKY, or sets it with a CODE that is not 0 (R30). -/
theorem executeWord_sticky {w : Word} {s t : State} (h : executeWord w s = .next t) :
    t.status.sticky = s.status.sticky ∨ (t.status.sticky = true ∧ t.status.code ≠ 0) := by
  rcases executeWord_status h with hs | ⟨e, rfl, -, he⟩
  · exact .inl (by rw [hs])
  · exact .inr ⟨rfl, s.raiseError_code_ne_zero he⟩

/-- How STICKY changes: at reset, by a STATUS write with bit 4 set, which clears it, or by a CMD write that leaves a
code, which sets it (R30, R153). -/
theorem step_changes_sticky {s t : State} (h : step s = .next t) (hne : t.status.sticky ≠ s.status.sticky) :
    ∃ rest, (s.pending = .reset :: rest ∧ t.status.sticky = false) ∨
      (∃ v : Word, v.getLsbD 4 = true ∧ s.pending = .write .word 0x304 v :: rest ∧ t.status.sticky = false) ∨
      ∃ w : Word, s.pending = .write .word 0x300 w :: rest ∧ t.status.sticky = true ∧ t.status.code ≠ 0 := by
  obtain ⟨rest, ⟨hp, hc⟩ | ⟨n, a, v, -, -, hc⟩ | ⟨a, r, v, -, -, hc⟩ | ⟨v, hp, hc⟩ | ⟨w, u, hp, hw, hu⟩⟩ :=
    step_changes (f := fun s => s.status.sticky) (fun _ _ _ => rfl) h hne
  · exact ⟨rest, .inl ⟨hp, hc⟩⟩
  · exact absurd hc hne
  · exact absurd (hc.trans (by rw [s.writeField_status])) hne
  · simp only [s.writeStatus_eq_ite] at hc
    by_cases hv : v.getLsbD 4 = true
    · exact ⟨rest, .inr (.inl ⟨v, hv, hp, hc.trans (if_pos hv)⟩)⟩
    · exact absurd (hc.trans (if_neg hv)) hne
  · rcases executeWord_sticky hw with hkeep | hset
    · exact absurd (hkeep.trans hu) hne
    · exact ⟨rest, .inr (.inr ⟨w, hp, hset⟩)⟩

/-- Settles O38: of the three changes of STICKY, the reset and the STATUS write leave it 0. -/
theorem stickyClearedOnlyByHost : Obligations.StickyClearedOnlyByHost := by
  intro s t h hs ht
  obtain ⟨rest, ⟨hp, -⟩ | ⟨v, hv, hp, -⟩ | ⟨w, -, hset, -⟩⟩ := step_changes_sticky h (by simp [hs, ht])
  · exact ⟨rest, .inl hp⟩
  · exact ⟨rest, .inr ⟨v, hv, hp⟩⟩
  · exact absurd hset (by simp [ht])

/-- Settles O45: a write of STATUS keeps CODE and DETAIL; of the three changes of STICKY, the CMD write leaves it 1. -/
theorem statusReportedOnlyByCommands : Obligations.StatusReportedOnlyByCommands := by
  refine fun s t h => ⟨fun hne => ?_, fun hs ht => ?_⟩
  · have hpair : (t.status.code, t.status.detail) ≠ (s.status.code, s.status.detail) := fun heq =>
      hne.elim (· (congrArg Prod.fst heq)) (· (congrArg Prod.snd heq))
    obtain ⟨rest, ⟨hp, -⟩ | ⟨n, a, v, -, -, hc⟩ | ⟨a, r, v, -, -, hc⟩ | ⟨v, -, hc⟩ | ⟨w, u, hp, -, -⟩⟩ :=
      step_changes (f := fun s => (s.status.code, s.status.detail)) (fun _ _ _ => rfl) h hpair
    · exact ⟨rest, .inl hp⟩
    · exact absurd hc hpair
    · exact absurd (hc.trans (by rw [s.writeField_status])) hpair
    · exact absurd (hc.trans (by rw [s.writeStatus_eq])) hpair
    · exact ⟨rest, .inr ⟨w, hp⟩⟩
  · obtain ⟨rest, ⟨-, hclear⟩ | ⟨v, -, -, hclear⟩ | ⟨w, hp, -, hcode⟩⟩ := step_changes_sticky h (by simp [hs, ht])
    · exact absurd ht (by simp [hclear])
    · exact absurd ht (by simp [hclear])
    · exact ⟨hcode, rest, w, hp⟩

end Sys2Proof.Machine

/-! ## Family other: the codec's round trip (R109) -/

namespace Sys2Proof.Machine

/-! ### Registers and the bytes they are read from -/

/-- No register is wider than 4 bytes (R26). -/
theorem FieldReg.bytes_le_four (r : FieldReg) : r.bytes ≤ 4 := by
  cases r with
  | fhType | fhRes1 | fhRes2 | ihPlanes | ihBitCount => decide
  | _ => exact le_rfl

/-- A register's value fits the bytes of its width (R26). -/
theorem State.readField_lt (s : State) (r : FieldReg) : (s.readField r).toNat < 256 ^ r.bytes := by
  have hhalf : ∀ v : Half, (v.setWidth 32).toNat < 256 ^ 2 := fun v => by
    rw [BitVec.toNat_setWidth]
    have := v.isLt
    omega
  cases r with
  | fhType | fhRes1 | fhRes2 | ihPlanes | ihBitCount => exact hhalf _
  | _ => exact BitVec.isLt _

/-- The bytes of a value that fits them are read back as the value (R9). -/
theorem State.memRead_of_hbufBytes {s : State} {off n : Nat} {v : Word} (h : s.hbufBytes off n = leBytes n v)
    (hv : v.toNat < 256 ^ n) : s.memRead off n = v := by
  rw [State.memRead, h, leValue_leBytes, Nat.mod_eq_of_lt hv, BitVec.ofNat_toNat, BitVec.setWidth_eq]

/-- What a register of its width keeps of a MemRead of that width is all of it (R26). -/
theorem State.readField_writeField_memRead (s t : State) (r : FieldReg) (off : Nat) :
    (t.writeField r (s.memRead off r.bytes)).readField r = s.memRead off r.bytes := by
  rw [State.readField_writeField_same]
  split
  · rename_i h
    rw [h, s.memRead_two, ← setWidth_half_setWidth_word, setWidth_setWidth_half]
  · rfl

/-- States in which every field register reads the same have the same three headers (R22). -/
theorem State.headers_eq_of_readField {s t : State} (h : ∀ r, t.readField r = s.readField r) :
    t.fh = s.fh ∧ t.ih = s.ih ∧ t.cm = s.cm := by
  have half : ∀ {a b : Half}, a.setWidth 32 = b.setWidth 32 → a = b := fun hab => by
    simpa using congrArg (BitVec.setWidth 16) hab
  refine ⟨(FileRegs.mk.injEq ..).mpr ⟨half (h .fhType), h .fhSize, half (h .fhRes1), half (h .fhRes2), h .fhOffBits⟩,
    (InfoRegs.mk.injEq ..).mpr ⟨h .ihSize, h .ihWidth, h .ihHeight, half (h .ihPlanes), half (h .ihBitCount),
      h .ihCompression, h .ihSizeImage, h .ihXppm, h .ihYppm, h .ihClrUsed, h .ihClrImportant⟩,
    (MaskRegs.mk.injEq ..).mpr ⟨h .cmRed, h .cmGreen, h .cmBlue, h .cmAlpha, h .cmCsType, ?_⟩⟩
  exact Vector.ext fun i hi => h (.cmUnused ⟨i, hi⟩)

/-! ### Decode(L), register by register -/

/-- Decode(L) leaves a register outside its fields as it was (R100). -/
theorem decodeFields_readField_of_not_mem {L : List Field} {r : FieldReg} (h : ∀ f ∈ L, f.reg ≠ r) (s : State) :
    (decodeFields L s).readField r = s.readField r := by
  induction L generalizing s with
  | nil => rfl
  | cons f L ih =>
    rw [decodeFields, ih fun g hg => h g (List.mem_cons_of_mem _ hg),
      s.readField_writeField_ne (h f List.mem_cons_self).symm]

/-- Decode(L), its registers distinct and its fields of their widths, gives a register its bytes (R100). -/
theorem decodeFields_readField {L : List Field} (hregs : L.Pairwise fun f g => f.reg ≠ g.reg)
    (hbytes : ∀ f ∈ L, f.bytes = f.reg.bytes) (s : State) {f : Field} (hf : f ∈ L) :
    (decodeFields L s).readField f.reg = s.memRead f.off f.bytes := by
  induction L generalizing s with
  | nil => cases hf
  | cons g L ih =>
    rw [List.pairwise_cons] at hregs
    rw [decodeFields]
    rcases List.mem_cons.mp hf with rfl | hf
    · rw [decodeFields_readField_of_not_mem fun g hg => (hregs.1 g hg).symm, hbytes f List.mem_cons_self,
        s.readField_writeField_memRead]
    · rw [ih hregs.2 (fun f hf => hbytes f (List.mem_cons_of_mem _ hf)) _ hf, State.writeField_memRead]

/-! ### One header -/

/-- What a header's two commands and its fields have in common: they run Decode(L) and Encode(L), the fields fill
HBUF[lo .. lo + n - 1] in order, each with a register of its own, and the other headers' registers are not among them
(R100 to R108). -/
structure HeaderCodec (dec enc : Instr) (L : List Field) (lo n : Nat) : Prop where
  exec_dec : ∀ s, exec dec s = .next (decodeFields L s).complete
  exec_enc : ∀ s, exec enc s = .next (encodeFields L s).complete
  tiles : tiles L lo n
  ordered : L.Pairwise fun f g => f.off + f.bytes ≤ g.off
  regs : L.Pairwise fun f g => f.reg ≠ g.reg
  bytes : ∀ f ∈ L, f.bytes = f.reg.bytes
  fh : dec ≠ .decfh → ∀ s, (decodeFields L s).fh = s.fh
  ih : dec ≠ .decih → ∀ s, (decodeFields L s).ih = s.ih
  cm : dec ≠ .deccm → ∀ s, (decodeFields L s).cm = s.cm

theorem headerCodec_fh : HeaderCodec .decfh .encfh fhFields 0 14 where
  exec_dec _ := rfl
  exec_enc _ := rfl
  tiles := tiles_fhFields
  ordered := pairwise_fhFields
  regs := by decide
  bytes f hf := field_bytes_eq f (List.mem_append_left _ (List.mem_append_left _ hf))
  fh h := absurd rfl h
  ih _ s := by rw [decodeFields_fhFields]
  cm _ s := by rw [decodeFields_fhFields]

theorem headerCodec_ih : HeaderCodec .decih .encih ihFields 14 40 where
  exec_dec _ := rfl
  exec_enc _ := rfl
  tiles := tiles_ihFields
  ordered := pairwise_ihFields
  regs := by decide
  bytes f hf := field_bytes_eq f (List.mem_append_left _ (List.mem_append_right _ hf))
  fh _ s := by rw [decodeFields_ihFields]
  ih h := absurd rfl h
  cm _ s := by rw [decodeFields_ihFields]

theorem headerCodec_cm : HeaderCodec .deccm .enccm cmFields 54 84 where
  exec_dec _ := rfl
  exec_enc _ := rfl
  tiles := tiles_cmFields
  ordered := pairwise_cmFields
  regs := by decide
  bytes f hf := field_bytes_eq f (List.mem_append_right _ hf)
  fh _ s := by rw [decodeFields_cmFields]
  ih _ s := by rw [decodeFields_cmFields]
  cm h := absurd rfl h

section
variable {dec enc : Instr} {L : List Field} {lo n : Nat} (hc : HeaderCodec dec enc L lo n)
include hc

/-- Decoding and then encoding a header writes each of its bytes back (R109). -/
theorem HeaderCodec.hbufByte_encode_decode (s : State) (k : Nat) :
    (encodeFields L (decodeFields L s).complete).hbufByte k = s.hbufByte k := by
  by_cases hk : covers L k
  · obtain ⟨f, hf, hlo, hhi⟩ := hk
    obtain ⟨i, rfl⟩ := Nat.exists_eq_add_of_le hlo
    have hi : i < f.bytes := by omega
    have hreg : (decodeFields L s).complete.readField f.reg = s.memRead f.off f.bytes :=
      (State.readField_congr rfl rfl rfl _).trans (decodeFields_readField hc.regs hc.bytes s hf)
    have hwidth : f.bytes ≤ 4 := hc.bytes f hf ▸ f.reg.bytes_le_four
    rw [encodeFields_hbufByte hc.ordered _ hf hi, hreg, s.extractLsb'_memRead f.off hwidth hi]
  · rw [encodeFields_hbufByte_of_not_covers _ hk]
    exact State.hbufByte_congr (decodeFields_hbuf L s) (decodeFields_resets L s) k

/-- Encoding and then decoding a header reads each register back (R109). -/
theorem HeaderCodec.readField_decode_encode (s : State) (r : FieldReg) :
    (decodeFields L (encodeFields L s).complete).readField r = s.readField r := by
  by_cases hr : ∃ f ∈ L, f.reg = r
  · obtain ⟨f, hf, rfl⟩ := hr
    have hbytes : (encodeFields L s).complete.hbufBytes f.off f.bytes = leBytes f.bytes (s.readField f.reg) :=
      (State.complete_hbufBytes _ _ _).trans (encodeFields_hbufBytes hc.ordered s hf)
    rw [decodeFields_readField hc.regs hc.bytes _ hf]
    exact State.memRead_of_hbufBytes hbytes (hc.bytes f hf ▸ s.readField_lt f.reg)
  · rw [decodeFields_readField_of_not_mem fun f hf heq => hr ⟨f, hf, heq⟩]
    exact State.readField_congr (encodeFields_fh L s) (encodeFields_ih L s) (encodeFields_cm L s) r

/-- Decode, then encode: every byte of HBUF, and the other two headers' registers, are as they were (R109). -/
theorem HeaderCodec.decode_then_encode (s : State) :
    ∃ t u, exec dec s = .next t ∧ exec enc t = .next u ∧ (∀ k, u.hbufByte k = s.hbufByte k) ∧
      (dec ≠ .decfh → u.fh = s.fh) ∧ (dec ≠ .decih → u.ih = s.ih) ∧ (dec ≠ .deccm → u.cm = s.cm) :=
  ⟨_, _, hc.exec_dec s, hc.exec_enc _, hc.hbufByte_encode_decode s,
    fun h => (encodeFields_fh L _).trans (hc.fh h s), fun h => (encodeFields_ih L _).trans (hc.ih h s),
    fun h => (encodeFields_cm L _).trans (hc.cm h s)⟩

/-- Encode, then decode: every field register, and the other headers' bytes, are as they were (R109). -/
theorem HeaderCodec.encode_then_decode (s : State) :
    ∃ t u, exec enc s = .next t ∧ exec dec t = .next u ∧ u.fh = s.fh ∧ u.ih = s.ih ∧ u.cm = s.cm ∧
      ∀ k, k < lo ∨ lo + n ≤ k → u.hbufByte k = s.hbufByte k := by
  obtain ⟨hfh, hih, hcm⟩ := State.headers_eq_of_readField (hc.readField_decode_encode s)
  refine ⟨_, _, hc.exec_enc s, hc.exec_dec _, hfh, hih, hcm, fun k hk => ?_⟩
  have hdec : (decodeFields L (encodeFields L s).complete).hbufByte k = (encodeFields L s).complete.hbufByte k :=
    State.hbufByte_congr (decodeFields_hbuf L _) (decodeFields_resets L _) k
  exact hdec.trans (encodeFields_complete_hbufByte hc.tiles s hk)

end

/-- Settles O12: the round trip of `HeaderCodec`, for each of the three headers. -/
theorem codecRoundTrip : Obligations.CodecRoundTrip := by
  intro p hp s
  simp only [List.mem_cons, List.not_mem_nil, or_false] at hp
  rcases hp with rfl | rfl | rfl
  · exact ⟨headerCodec_fh.decode_then_encode s, headerCodec_fh.encode_then_decode s⟩
  · exact ⟨headerCodec_ih.decode_then_encode s, headerCodec_ih.encode_then_decode s⟩
  · exact ⟨headerCodec_cm.decode_then_encode s, headerCodec_cm.encode_then_decode s⟩

end Sys2Proof.Machine

/-! ## Family other: an access done twice (R55) -/

namespace Sys2Proof.Machine

/-! ### Storing the same bytes twice -/

/-- Bytes stored twice in a canonical memory are stored once. -/
theorem Memory.store_store {m : Memory} (h : m.wf) {a : Nat} {bs : List Byte}
    (ha : a + bs.length ≤ Config.hbufSize) : (m.store a bs).store a bs = m.store a bs := by
  have hstore := Memory.wf_store h ha
  refine Memory.ext_of_wf (Memory.wf_store hstore ha) hstore fun k => ?_
  rw [Memory.get?_store]
  split
  · rename_i hk
    rw [Memory.get?_store, if_pos hk]
  · rfl

theorem Memory.store_append (m : Memory) (a : Nat) (bs cs : List Byte) :
    m.store a (bs ++ cs) = (m.store a bs).store (a + bs.length) cs := by
  induction bs generalizing m a with
  | nil => rfl
  | cons b bs ih =>
    rw [List.cons_append, Memory.store, ih, Memory.store, List.length_cons, Nat.add_right_comm, Nat.add_assoc]

/-- Encode(L), where the fields fill a run of bytes, stores their registers' image over the run (R100). -/
theorem encodeFields_hbuf_eq_store {L : List Field} {off n : Nat} (hL : tiles L off n) (s : State) :
    (encodeFields L s).hbuf = s.hbuf.store off (fieldsImage L s) ∧ (fieldsImage L s).length = n := by
  induction L generalizing s off n with
  | nil => exact ⟨rfl, (beq_iff_eq.mp hL).symm⟩
  | cons f L ih =>
    obtain ⟨rfl, hle, hrest⟩ := tiles_cons.mp hL
    have himage : fieldsImage (f :: L) s = leBytes f.bytes (s.readField f.reg) ++ fieldsImage L s := rfl
    have hsame : ∀ t : State, (∀ r, t.readField r = s.readField r) → fieldsImage L t = fieldsImage L s := fun t ht => by
      simp only [fieldsImage, ht]
    obtain ⟨hbuf, hlen⟩ := ih hrest (s.memWrite f.off f.bytes (s.readField f.reg))
    rw [hsame _ fun r => s.memWrite_readField _ _ _ r] at hbuf hlen
    rw [encodeFields, hbuf, himage, Memory.store_append, length_leBytes, List.length_append, length_leBytes, hlen]
    exact ⟨rfl, Nat.add_sub_cancel' hle⟩

/-- An ENC* command done twice is done once (R106 to R108). -/
theorem encodeFields_complete_twice {L : List Field} {off n : Nat} (hL : tiles L off n)
    (hn : off + n ≤ Config.hbufSize) {s : State} (hs : s.hbuf.wf) :
    (encodeFields L (encodeFields L s).complete).complete = (encodeFields L s).complete := by
  obtain ⟨hbuf, hlen⟩ := encodeFields_hbuf_eq_store hL s
  obtain ⟨hbuf', -⟩ := encodeFields_hbuf_eq_store hL (encodeFields L s).complete
  have himage : fieldsImage L (encodeFields L s).complete = fieldsImage L s := by
    simp only [fieldsImage]
    congr 1
    funext f
    rw [State.readField_congr (s := (encodeFields L s).complete) (t := s) (encodeFields_fh L s) (encodeFields_ih L s)
      (encodeFields_cm L s)]
  rw [himage, State.complete_hbuf, hbuf, Memory.store_store hs (hlen.symm ▸ hn), ← hbuf] at hbuf'
  rw [encodeFields_eq L (encodeFields L s).complete, hbuf']
  rfl

/-! ### A command done twice -/

/-- A command that fails, fails again: an error is written to STATUS, and no command reads STATUS. -/
theorem Fails.again {i : Instr} {s : State} {e : CmdError} (h : Fails i s e) : Fails i (s.raiseError e) e := by
  cases h with
  | stride he => exact .stride he
  | norm he => exact .norm he
  | width hw a => exact .width (s := s.raiseError _) hw a
  | height hw hh a => exact .height (s := s.raiseError _) hw hh a
  | synth hw hh he => exact .synth hw hh he
  | validate hv => exact .validate hv

/-- A command that completes, completes again with the state it left. -/
theorem Completes.again {i : Instr} {s u : State} (h : Completes i s u) (hs : s.hbuf.wf) :
    exec i u.complete = .next u.complete := by
  cases h with
  | nop => exact (Completes.nop s.complete).exec_eq
  | decfh => exact (Completes.decfh _).exec_eq
  | decih => exact (Completes.decih _).exec_eq
  | deccm => exact (Completes.deccm _).exec_eq
  | @enc i L hi =>
    have htwice : (encodeFields L (encodeFields L s).complete).complete = (encodeFields L s).complete := by
      rcases hi.tiles with ⟨-, hL⟩ | ⟨-, hL⟩ | ⟨-, hL⟩ <;> exact encodeFields_complete_twice hL (by decide) hs
    rw [hi.exec_eq, htwice]
  | @stride s r hr => exact (Completes.stride (s := ({ s with sc := r.regs } : State).complete) hr).exec_eq
  | @norm s r f hr => exact (Completes.norm (s := (normState s r f).complete) hr).exec_eq
  | @synth a s r f hw hh hr => exact (Completes.synth (s := (synthState a s r f).complete) hw hh hr).exec_eq
  | validate hv => exact (Completes.validate (s := s.complete) hv).exec_eq

/-- A word executed twice leaves the state of executing it once (R55). -/
theorem executeWord_again {w : Word} {s t : State} (hs : s.hbuf.wf) (h : executeWord w s = .next t) :
    executeWord w t = .next t := by
  rcases executeWord_cases h with ⟨e, he, rfl⟩ | ⟨i, hi, hexec⟩
  · exact executeWord_of_decode_error he _
  · rw [executeWord_of_decode_ok hi]
    rcases exec_next_cases hexec with ⟨u, hu, rfl⟩ | ⟨e, he, rfl⟩
    · exact hu.again hs
    · exact he.again.exec_eq

/-! ### An access done twice -/

/-- No register's value depends on the bus's last answer (log 2). -/
theorem State.respond_regRead (s : State) (x : Response) (r : RegName) : (s.respond x).regRead r = s.regRead r := by
  cases r with
  | field r => exact State.readField_congr rfl rfl rfl r
  | flags => exact State.flagsWord_congr rfl rfl rfl
  | _ => rfl

/-- A read gives the same, and leaves the same, whatever the bus answered before (log 2). -/
theorem hostRead_respond (n : AccessSize) (a : Addr) (s : State) (x : Response) :
    hostRead n a (s.respond x) = hostRead n a s := by
  have hmem : ∀ off, (s.respond x).memRead off n.bytes = s.memRead off n.bytes := fun off =>
    State.memRead_congr fun _ _ _ => rfl
  rw [hostRead, hostRead]
  cases target n a with
  | hbuf off =>
    simp only [hmem]
    rfl
  | reg r =>
    simp only [s.respond_regRead]
    rfl
  | nothing => rfl

/-- A field register written twice with one value is written once. -/
theorem State.writeField_respond_twice (s : State) (r : FieldReg) (v : Word) (x : Response) :
    (((s.writeField r v).respond x).writeField r v).respond x = (s.writeField r v).respond x := by
  cases r with
  | cmUnused i => simp [State.writeField, State.respond]
  | _ => rfl

/-- Settles O35: reads answer the same whatever was answered before; a write of bytes, of a field register or of STATUS
stores the same again; a command done twice is done once. -/
theorem accessesAreIdempotent : Obligations.AccessesAreIdempotent := by
  intro s t e hs hne h
  rw [step_issue] at h ⊢
  rcases hostEvent_cases h with ⟨n, a, v, rfl, rfl⟩ | ⟨n, a, v, rfl, ha, rfl⟩ | ⟨a, r, v, rfl, hr, rfl⟩ |
    ⟨v, rfl, rfl⟩ | ⟨w, rfl, hw⟩ | ⟨rfl, -⟩
  · exact ⟨(hostRead_respond n a s _).trans h, fun _ _ _ => ⟨v, rfl⟩⟩
  · refine ⟨?_, fun _ _ he => by cases he⟩
    rw [hostEvent, hostWrite, target_hbuf ha]
    have hstore : (s.hbuf.store a.toNat (leBytes n.bytes v)).store a.toNat (leBytes n.bytes v) =
        s.hbuf.store a.toNat (leBytes n.bytes v) := Memory.store_store hs (by rwa [length_leBytes])
    simp only [State.memWrite, State.respond, hstore]
  · refine ⟨?_, fun _ _ he => by cases he⟩
    rw [hostEvent, hostWrite, target_reg (r := .field r) hr]
    exact congrArg _ (s.writeField_respond_twice r v .ack)
  · refine ⟨?_, fun _ _ he => by cases he⟩
    rw [hostEvent, hostWrite, target_reg (r := .status) rfl]
    simp [State.regWrite, State.writeStatus_eq, State.respond]
  · refine ⟨?_, fun _ _ he => by cases he⟩
    obtain ⟨-, hresp, -⟩ := executeWord_frame hw
    have hack : t.respond .ack = t := by
      rw [State.respond, ← State.respond_response s .ack, ← hresp]
    rw [hostEvent_cmdWrite, hack]
    exact executeWord_again (s := s.respond .ack) hs hw
  · exact absurd rfl hne

end Sys2Proof.Machine

/-! ## Family other: the address space, admitted accesses, and runs of them (R50 to R60) -/

namespace Sys2Proof.Machine

/-! ### HBUF accesses -/

/-- A read inside HBUF answers MemRead, and changes nothing else (R52). -/
theorem step_issue_read_hbuf {n : AccessSize} {a : Addr} (h : a.toNat + n.bytes ≤ Config.hbufSize) (s : State) :
    step (s.issue (.read n a)) = .next { s with response := .data (s.memRead a.toNat n.bytes) } := by
  rw [step_issue, hostEvent, hostRead, target_hbuf h]
  rfl

/-- A write inside HBUF is MemWrite, acknowledged (R52). -/
theorem step_issue_write_hbuf {n : AccessSize} {a : Addr} (h : a.toNat + n.bytes ≤ Config.hbufSize) (s : State)
    (v : Word) : step (s.issue (.write n a v)) = .next ((s.memWrite a.toNat n.bytes v).respond .ack) := by
  rw [step_issue, hostEvent, hostWrite, target_hbuf h]

/-- MemRead of n bytes is an n-byte value (R52). -/
theorem State.memRead_lt (s : State) (off n : Nat) : (s.memRead off n).toNat < 256 ^ n := by
  have h := leValue_lt (s.hbufBytes off n)
  rw [s.length_hbufBytes] at h
  rw [State.memRead, BitVec.toNat_ofNat]
  exact (Nat.mod_le _ _).trans_lt h

/-! ### Admitted accesses -/

/-- The result registers stand at read-only addresses (R54). -/
theorem ScReg.readOnly_addr (r : ScReg) : readOnly r.addr := by cases r <;> decide

/-- A register that is not read-only takes every value written to it (R54). -/
theorem State.regWrite_next {r : RegName} (h : ¬ readOnly r.addr) (s : State) (a : Addr) (v : Word) :
    ∃ t, s.regWrite a v r = .next t := by
  cases r with
  | sc r => exact absurd r.readOnly_addr h
  | scContig | flags => exact absurd (by decide) h
  | cmd => exact executeWord_next v (s.respond .ack)
  | field | status => exact ⟨_, rfl⟩

/-- An admitted event answers a next state (R51, R54). -/
theorem hostEvent_next_of_admitted {e : HostEvent} (h : e.admitted) (s : State) : ∃ t, hostEvent e s = .next t := by
  cases e with
  | read n a =>
    rw [hostEvent, hostRead]
    rcases target_cases n a with ⟨-, ht⟩ | ⟨-, r, -, ht⟩ | ⟨hb, hr, -⟩
    · exact ⟨_, by rw [ht]⟩
    · exact ⟨_, by rw [ht]⟩
    · exact absurd h (not_or.mpr ⟨hb, hr⟩)
  | write n a v =>
    rw [hostEvent, hostWrite]
    rcases target_cases n a with ⟨-, ht⟩ | ⟨rfl, r, hr, ht⟩ | ⟨hb, hr, -⟩
    · exact ⟨_, by rw [ht]⟩
    · rw [ht]
      refine State.regWrite_next (fun hro => ?_) s a v
      have hmap := r.addr_inRegMap
      rw [hr] at hro hmap
      rcases h with hbuf | ⟨-, -, hro'⟩
      · simp only [Config.hbufSize, Config.fhWireSize, Config.ihWireSize, Config.cmWireSize] at hbuf
        omega
      · exact hro' hro
    · exact absurd h (not_or.mpr ⟨hb, fun hw => hr ⟨hw.1, hw.2.1⟩⟩)
  | reset => exact ⟨_, rfl⟩

/-- A read that is not admitted is the bus error of its address (R51, R56). -/
theorem step_issue_read_of_not_admitted {n : AccessSize} {a : Addr} (h : ¬ (HostEvent.read n a).admitted) (s : State) :
    step (s.issue (.read n a)) = .fault (.busError a) := by
  rw [step_issue, hostEvent, hostRead]
  rcases target_cases n a with ⟨hb, -⟩ | ⟨hn, r, hr, -⟩ | ⟨-, -, ht⟩
  · exact absurd (.inl hb) h
  · exact absurd (.inr ⟨hn, hr ▸ r.addr_inRegMap⟩) h
  · rw [ht]

/-- A write that is not admitted is the bus error of its address (R51, R54, R56). -/
theorem step_issue_write_of_not_admitted {n : AccessSize} {a : Addr} {v : Word}
    (h : ¬ (HostEvent.write n a v).admitted) (s : State) :
    step (s.issue (.write n a v)) = .fault (.busError a) := by
  by_cases hro : readOnly a.toNat
  · exact step_issue_write_readOnly hro s n v
  · rw [step_issue, hostEvent, hostWrite]
    rcases target_cases n a with ⟨hb, -⟩ | ⟨hn, r, hr, -⟩ | ⟨-, -, ht⟩
    · exact absurd (.inl hb) h
    · exact absurd (.inr ⟨hn, hr ▸ r.addr_inRegMap, hro⟩) h
    · rw [ht]

/-- What an access reaches, it reaches from one address (R50, R52). -/
theorem addr_eq_of_target_eq {n m : AccessSize} {a b : Addr} (ha : target n a ≠ .nothing)
    (h : target n a = target m b) : a = b := by
  refine BitVec.eq_of_toNat_eq ?_
  rcases target_cases n a with ⟨-, hta⟩ | ⟨-, r, hra, hta⟩ | ⟨-, -, hta⟩ <;>
    rcases target_cases m b with ⟨-, htb⟩ | ⟨-, q, hrb, htb⟩ | ⟨-, -, htb⟩ <;> rw [hta, htb] at h
  · exact Target.hbuf.inj h
  · cases h
  · cases h
  · cases h
  · rw [← hra, ← hrb, Target.reg.inj h]
  · cases h
  all_goals exact absurd hta ha

/-- An access that starts inside HBUF and ends past it is not admitted: no register lies there (R52). -/
theorem not_inRegMap_of_le {a : Nat} (h : a ≤ 0x089) : ¬ inRegMap a := by
  simp only [inRegMap]
  omega

/-! ### Runs -/

/-- A step uses up the host's oldest event, and no other (R10). -/
theorem step_pending {s t : State} (h : step s = .next t) : ∃ e, s.pending = e :: t.pending := by
  obtain ⟨e, rest, hp, he⟩ := step_cases h
  suffices t.pending = rest from ⟨e, this ▸ hp⟩
  rcases hostEvent_cases he with ⟨n, a, v, -, rfl⟩ | ⟨n, a, v, -, -, rfl⟩ | ⟨a, r, v, -, -, rfl⟩ | ⟨v, -, rfl⟩ |
    ⟨w, -, hw⟩ | ⟨-, rfl⟩
  · rfl
  · rfl
  · exact State.writeField_pending _ r v
  · rw [State.respond_pending, State.writeStatus_eq]
  · exact (executeWord_frame hw).1
  · rfl

/-- The host's events to come stay admitted along a run. -/
theorem Reaches.admitted {s t : State} (h : Reaches s t) (hs : ∀ e ∈ s.pending, e.admitted) :
    ∀ e ∈ t.pending, e.admitted := by
  induction h with
  | refl => exact hs
  | tail hr hstep ih =>
    obtain ⟨e, hp⟩ := step_pending hstep
    exact fun e he => ih e (hp ▸ List.mem_cons_of_mem _ he)

/-- A step in front of a run. -/
theorem Reaches.head {s t u : State} (h : Steps s t) (hr : Reaches t u) : Reaches s u := by
  induction hr with
  | refl => exact .tail (.refl s) h
  | tail _ hstep ih => exact .tail ih hstep

/-- With no event left the machine is stuck (R10, log 4). -/
theorem step_of_pending_nil {s : State} (h : s.pending = []) : step s = .fault .hostIdle := by
  rw [step, hostStep, h]

/-- With an admitted event to take the machine steps. -/
theorem step_next_of_admitted {s : State} {e : HostEvent} {rest : List HostEvent} (hp : s.pending = e :: rest)
    (he : e.admitted) : ∃ t, step s = .next t := by
  rw [step_eq hp]
  exact hostEvent_next_of_admitted he _

/-- A host that only issues admitted accesses brings the machine to where none is left. -/
theorem reaches_idle {es : List HostEvent} {s : State} (hp : s.pending = es) (hs : ∀ e ∈ es, e.admitted) :
    ∃ t, Reaches s t ∧ t.pending = [] := by
  induction es generalizing s with
  | nil => exact ⟨s, .refl s, hp⟩
  | cons e es ih =>
    obtain ⟨t, ht⟩ := step_next_of_admitted hp (hs e List.mem_cons_self)
    obtain ⟨e', hp'⟩ := step_pending ht
    have htail : t.pending = es := (List.cons.inj (hp'.symm.trans hp)).2
    obtain ⟨u, hu, hidle⟩ := ih htail fun e he => hs e (List.mem_cons_of_mem _ he)
    exact ⟨u, hu.head ht, hidle⟩

/-! ### The obligations -/

/-- Settles O44: each state of the run has admitted events to come, so it steps or is idle, and each step uses one
up. -/
theorem admittedHostNeverFaults : Obligations.AdmittedHostNeverFaults := by
  refine fun s hs => ⟨fun t a ht hfault => ?_, ?_⟩
  · cases hp : t.pending with
    | nil =>
      rw [step_of_pending_nil hp] at hfault
      cases hfault
    | cons e rest =>
      obtain ⟨u, hu⟩ := step_next_of_admitted hp (ht.admitted hs e (hp ▸ List.mem_cons_self))
      rw [hu] at hfault
      cases hfault
  · obtain ⟨t, ht, hidle⟩ := reaches_idle rfl hs
    exact ⟨t, ht, hidle, step_of_pending_nil hidle⟩

/-- Settles O31: the admitted accesses are those with a target that takes them, and a target tells its address. -/
theorem busErrorsExactly : Obligations.BusErrorsExactly := by
  refine ⟨fun s e => ⟨fun he => hostEvent_next_of_admitted he s, fun he => ?_⟩,
    fun n m a b ha h => addr_eq_of_target_eq ha h⟩
  cases e with
  | read n a => exact ⟨a, step_issue_read_of_not_admitted he s, .inl ⟨n, rfl⟩⟩
  | write n a v => exact ⟨a, step_issue_write_of_not_admitted he s, .inr ⟨n, v, rfl⟩⟩
  | reset => exact absurd trivial he

/-- Settles O32: MemRead of each width, MemWrite byte by byte, and what runs past byte 137 is not admitted. -/
theorem hbufAccesses : Obligations.HbufAccesses := by
  refine ⟨fun s a h => ?_, fun s a h => ?_, fun s a h => ?_, fun s n a v h => ?_, fun s n a v hlo hhi => ?_⟩
  · rw [step_issue_read_hbuf (n := .byte) h, AccessSize.bytes, s.memRead_one]
  · rw [step_issue_read_hbuf (n := .half) h, AccessSize.bytes, s.memRead_two]
    rfl
  · rw [step_issue_read_hbuf (n := .word) h, AccessSize.bytes, s.memRead_four]
    rfl
  · refine ⟨_, step_issue_write_hbuf h s v, rfl, fun i hi => ?_, fun k hk => ?_⟩
    · rw [State.respond_hbufByte, s.memWrite_hbufByte, if_pos (by omega), Nat.add_sub_cancel_left]
    · rw [State.respond_hbufByte, s.memWrite_hbufByte, if_neg (by omega)]
  · have hreg := not_inRegMap_of_le hlo
    have hbuf : ¬ a.toNat + n.bytes ≤ Config.hbufSize := Nat.not_le.mpr hhi
    exact ⟨step_issue_read_of_not_admitted (not_or.mpr ⟨hbuf, fun h => hreg h.2⟩) s,
      step_issue_write_of_not_admitted (not_or.mpr ⟨hbuf, fun h => hreg h.2.1⟩) s⟩

/-- Settles O34: byte j of MemRead is HBUF's byte there, and MemWrite says which bytes are new. -/
theorem mixedWidthReadAfterWrite : Obligations.MixedWidthReadAfterWrite := by
  intro s n m a b v ha hb
  refine ⟨_, _, _, step_issue_write_hbuf ha s v, step_issue_read_hbuf hb _, rfl, State.memRead_lt _ _ _, fun j hj => ?_⟩
  have hm : m.bytes ≤ 4 := by cases m <;> decide
  rw [State.extractLsb'_memRead _ _ hm hj, State.respond_hbufByte, s.memWrite_hbufByte]

/-- Settles O24: the map is a list of 47 registers in which a register is found at its address alone. -/
theorem registerMapIsTheTable : Obligations.RegisterMapIsTheTable := by
  refine ⟨rfl, fun r q h => ?_, fun a => regAt_isSome, rfl, rfl, rfl, fun i => rfl⟩
  exact Option.some.inj ((regAt_eq_some.mpr h).symm.trans (regAt_eq_some.mpr rfl))

/-- Settles O26: each SC address reads its register, and all of 0x200..0x218 is read-only. -/
theorem resultRegistersReadOnly : Obligations.ResultRegistersReadOnly := fun s v =>
  ⟨step_issue_read_reg (r := .sc .channels) rfl s, step_issue_read_reg (r := .sc .rowStride) rfl s,
    step_issue_read_reg (r := .sc .aligned) rfl s, step_issue_read_reg (r := .sc .pad) rfl s,
    step_issue_read_reg (r := .sc .bufSize) rfl s, step_issue_read_reg (r := .sc .diskSize) rfl s,
    fun _ hlo hhi => step_issue_write_readOnly (.inl ⟨hlo, hhi⟩) s .word v⟩

end Sys2Proof.Machine

/-! ## Family other: signed patterns, reset, and the invariant (R8, R28, R34, R150, R170) -/

namespace Sys2Proof.Machine

/-! ### Signed patterns -/

/-- sext_32's range (R8). -/
theorem sext32_bounds (v : Word) : -2 ^ 31 ≤ sext32 v ∧ sext32 v < 2 ^ 31 := by
  rw [sext32_eq_toInt]
  exact ⟨BitVec.le_toInt v, BitVec.toInt_lt⟩

/-- sext_32 undoes enc_32 on the 32-bit range (R8). -/
theorem sext32_enc32 {n : Int} (hlo : -2 ^ 31 ≤ n) (hhi : n < 2 ^ 31) : sext32 (enc32 n) = n := by
  rw [sext32_eq_toInt, enc32, BitVec.toInt_ofInt]
  exact Int.bmod_eq_of_le (by omega) (by omega)

/-- Settles O29: sext_32 is the two's complement value, and enc_32 the pattern of an integer mod 2^32. -/
theorem signedPatternsRoundTrip : Obligations.SignedPatternsRoundTrip := by
  refine ⟨fun v => ⟨?_, sext32_bounds v⟩, fun n hlo hhi => ⟨sext32_enc32 hlo hhi, ?_⟩⟩
  · rw [sext32_eq_toInt, enc32, BitVec.ofInt_toInt]
  · rw [enc32, BitVec.toNat_ofInt, Int.toNat_of_nonneg (Int.emod_nonneg _ (by decide))]
    rfl

/-! ### Reset -/

/-- With every register at its reset value every read gives 0, but FLAGS, where three checks pass, and SC_CONTIG
(R34). -/
theorem State.reads_of_reset {t : State} (hfh : t.fh = .reset) (hih : t.ih = .reset) (hcm : t.cm = .reset)
    (hsc : t.sc = .reset) (hst : t.status = .reset) :
    (∀ r, t.readField r = 0) ∧ (∀ r, t.sc.read r = 0) ∧ t.status.word = 0 ∧ t.flagsWord = 0x52 ∧ t.contigWord = 1 := by
  refine ⟨fun r => ?_, fun r => ?_, ?_, ?_, ?_⟩
  · rw [State.readField_congr (t := State.reset) hfh hih hcm]
    cases r with
    | cmUnused i => exact Vector.getElem_replicate i.isLt
    | _ => rfl
  · rw [hsc]
    cases r <;> rfl
  · rw [hst]
    rfl
  · rw [State.flagsWord_congr (t := State.reset) hfh hih hcm]
    rfl
  · rw [State.contigWord, hsc]
    rfl

/-- Settles O30: the reset event and the first state leave the same registers. -/
theorem resetLeavesZeros : Obligations.ResetLeavesZeros := by
  refine ⟨fun s => ⟨s.pulseReset, rfl, ?_⟩, ?_⟩
  · obtain ⟨hfield, hsc, hst, hflags, hcontig⟩ := State.reads_of_reset (t := s.pulseReset) rfl rfl rfl rfl rfl
    exact ⟨hfield, hsc, hst, hflags, hcontig, rfl, rfl⟩
  · obtain ⟨hfield, hsc, hst, hflags, hcontig⟩ := State.reads_of_reset (t := State.reset) rfl rfl rfl rfl rfl
    exact ⟨hfield, hsc, hst, hflags, hcontig, rfl⟩

/-! ### The invariant -/

/-- The reset STATUS reports success (R34, R151). -/
theorem legal_reset : Status.reset.legal := ⟨(.ok, .none), List.mem_cons_self, rfl, rfl⟩

/-- The reset results are those of a picture of no size (R28, R34). -/
theorem consistent_reset : StrideRegs.reset.consistent := 
  ⟨0, 0, by decide, by decide, by decide, rfl, rfl, rfl, by decide, rfl, rfl⟩

/-- Settles O42: the three parts of the invariant at reset. -/
theorem resetSatisfiesInvariant : Obligations.ResetSatisfiesInvariant where
  hbuf := Memory.wf_nil
  status := legal_reset
  sc := consistent_reset

/-- A dimension that StrideCalc takes is below 2^31 (R8). -/
theorem toNat_sext32_lt (v : Word) : (sext32 v).toNat < 2 ^ 31 := by
  have := (sext32_bounds v).2
  omega

/-- What StrideCalc returns is consistent (R28, R120). -/
theorem consistent_of_strideCalc {w h : Word} {b : Half} {r : StrideResult} (hr : strideCalc w h b = .ok r) :
    r.regs.consistent := by
  obtain ⟨-, -, hc, hrow, hal, hpad, hpad3, hbuf, hdisk, -⟩ := strideCalc_ok hr
  obtain ⟨hc', hrow', hal', hpad', hbuf', hdisk'⟩ := regs_toNat hr
  refine ⟨(sext32 w).toNat, (sext32 h).toNat, toNat_sext32_lt w, toNat_sext32_lt h, ?_⟩
  rw [hc', hrow', hal', hpad', hbuf', hdisk']
  have hb := b.isLt
  exact ⟨by omega, hrow, by omega, hpad, hpad3, hbuf, hdisk⟩

/-- A report written to STATUS is legal where it is one of the list's (R151). -/
theorem legal_of_mem {e : CmdError} (he : (e.code, e.detail) ∈ legalReports) (k : Bool) :
    Status.legal { code := e.code.bits, sticky := k, detail := e.detail.bits } :=
  ⟨_, he, rfl, rfl⟩

/-- A command that completes keeps HBUF's canonical form (R100). -/
theorem Completes.wf {i : Instr} {s u : State} (h : Completes i s u) (hs : s.hbuf.wf) : u.hbuf.wf := by
  cases h with
  | enc hi =>
    cases hi with
    | encfh => exact encodeFields_wf fhFields_inside hs
    | encih => exact encodeFields_wf ihFields_inside hs
    | enccm => exact encodeFields_wf cmFields_inside hs
  | _ => exact hs

/-- A command that completes keeps the stride results consistent (R28). -/
theorem Completes.consistent {i : Instr} {s u : State} (h : Completes i s u) (hs : s.sc.consistent) :
    u.sc.consistent := by
  cases h with
  | stride hr => exact consistent_of_strideCalc hr
  | norm hr | synth _ _ hr => exact consistent_of_strideCalc (layoutCalc_ok hr).1
  | enc => rwa [encodeFields_sc]
  | _ => exact hs

/-- A word executed keeps the invariant. -/
theorem executeWord_inv {w : Word} {s t : State} (h : executeWord w s = .next t) (hs : s.Inv) : t.Inv := by
  obtain ⟨hbuf, hstatus, hsc⟩ := hs
  rcases executeWord_next_cases h with ⟨i, u, -, hu, rfl⟩ | ⟨e, rfl, he, -⟩
  · exact ⟨hu.wf hbuf, ⟨(.ok, .none), List.mem_cons_self, rfl, rfl⟩, hu.consistent hsc⟩
  · exact ⟨hbuf, legal_of_mem he true, hsc⟩

/-- Settles O43: MemWrite stays inside HBUF, a STATUS write keeps the report, and an executed word keeps each part. -/
theorem stepKeepsInvariant : Obligations.StepKeepsInvariant := by
  intro s t hs h
  obtain ⟨e, rest, -, he⟩ := step_cases h
  have hs' : State.Inv { s with pending := rest } := ⟨hs.hbuf, hs.status, hs.sc⟩
  obtain ⟨hbuf, hstatus, hsc⟩ := hs'
  rcases hostEvent_cases he with ⟨n, a, v, -, rfl⟩ | ⟨n, a, v, -, ha, rfl⟩ | ⟨a, r, v, -, -, rfl⟩ | ⟨v, -, rfl⟩ |
    ⟨w, -, hw⟩ | ⟨-, rfl⟩
  · exact ⟨hbuf, hstatus, hsc⟩
  · exact ⟨Memory.wf_store hbuf (by rwa [length_leBytes]), hstatus, hsc⟩
  · exact ⟨by simpa using hbuf, by simpa using hstatus, by simpa using hsc⟩
  · rw [State.writeStatus_eq]
    exact ⟨hbuf, hstatus, hsc⟩
  · exact executeWord_inv hw ⟨hbuf, hstatus, hsc⟩
  · exact ⟨Memory.wf_nil, legal_reset, consistent_reset⟩

/-! ### VALIDATE and DOC's decoder -/

/-- The registers that DECFH, DECIH and DECCM load from a file's header bytes. -/
def State.decoded (s : State) : State :=
  ({ s with fh := .ofBytes s.hbufByte, ih := .ofBytes s.hbufByte, cm := .ofBytes s.hbufByte } : State).complete

/-- DECFH, DECIH and DECCM in a row load the three headers (R103 to R105). -/
theorem exec_decode_sequence (s : State) :
    ∃ t u, exec .decfh s = .next t ∧ exec .decih t = .next u ∧ exec .deccm u = .next s.decoded :=
  ⟨_, _, exec_decfh s, exec_decih _, exec_deccm _⟩

/-- BPP_OK and COMP_OK, the two checks VALIDATE makes and DOC's decoder does not (R142). -/
def State.formatError (s : State) : Option ErrorCode :=
  if s.bppOk = true ∧ s.compOk = true then none else some .unsupportedFormat

/-- The two format checks one after the other, as VALIDATE makes them (R140). -/
theorem State.formatError_eq_ite (s : State) :
    s.formatError =
      if s.ih.bitCount ≠ 24 ∧ s.ih.bitCount ≠ 32 then some .unsupportedFormat
      else if ¬ (s.ih.compression = 0 ∨ (s.ih.compression = 3 ∧ s.ih.bitCount = 32)) then some .unsupportedFormat
      else none := by
  have hfails : ¬ (s.bppOk = true ∧ s.compOk = true) ↔ (s.ih.bitCount ≠ 24 ∧ s.ih.bitCount ≠ 32) ∨
      ¬ (s.ih.compression = 0 ∨ (s.ih.compression = 3 ∧ s.ih.bitCount = 32)) := by
    rw [not_and_or, s.bppOk_iff, s.compOk_iff, not_or]
  rw [← ite_or, State.formatError, ← ite_not]
  exact if_congr hfails rfl rfl

/-- DOC checks the masks and the tag at once, VALIDATE one after the other; the code is the same (R140, R142). -/
theorem ite_masks_and_tag {α : Type} (p r g b a c : Prop) [Decidable p] [Decidable r] [Decidable g] [Decidable b]
    [Decidable a] [Decidable c] (x y : α) :
    (if p ∧ ¬ (r ∧ g ∧ b ∧ a ∧ c) then x else y) =
      if p ∧ ¬ (r ∧ g ∧ b ∧ a) then x else if p ∧ ¬ c then x else y := by
  rw [← ite_or]
  exact if_congr (by tauto) rfl rfl

/-- VALIDATE's code on the decoded headers is DOC's error, and where DOC has none, that of the two format checks
(R142). -/
theorem verdict_decoded_code (s : State) :
    s.decoded.verdict.map CmdError.code = (docHeaderError s.hbufByte).or s.decoded.formatError := by
  have hor : ∀ (p : Prop) [Decidable p] (x y : Option ErrorCode),
      (if p then x else y).or s.decoded.formatError =
        if p then x.or s.decoded.formatError else y.or s.decoded.formatError :=
    fun p _ x y => apply_ite (Option.or · s.decoded.formatError) p x y
  rw [State.verdict_eq_ite, docHeaderError, ite_masks_and_tag]
  simp only [hor, Option.some_or, Option.none_or, apply_ite (Option.map CmdError.code), Option.map_some,
    Option.map_none]
  rw [State.formatError_eq_ite]
  rfl

/-- VALIDATE leaves in CODE the code of its verdict, 0 where it has none (R140, R150). -/
theorem exec_validate_code (s : State) :
    ∃ x, exec .validate s = .next x ∧
      x.status.code = ((s.verdict.map CmdError.code).getD .ok).bits := by
  refine ⟨_, exec_validate s, ?_⟩
  cases s.verdict <;> rfl

/-- DOC's decoder reports no success as an error. -/
theorem ne_ok_of_docHeaderError {file : Nat → Byte} {e : ErrorCode} (h : docHeaderError file = some e) : e ≠ .ok := by
  rintro rfl
  unfold docHeaderError at h
  repeat' split at h
  all_goals cases h

/-- Settles O22: VALIDATE's code on the decoded headers is DOC's where DOC has one, and else that of the format
checks. -/
theorem validateAgreesWithDocDecoder : Obligations.ValidateAgreesWithDocDecoder := by
  intro s
  obtain ⟨t, u, ht, hu, hv⟩ := exec_decode_sequence s
  obtain ⟨x, hx, hcode⟩ := exec_validate_code s.decoded
  refine ⟨t, u, s.decoded, x, ht, hu, hv, hx, ?_, fun e he => ?_⟩
  · rw [hcode, verdict_decoded_code, State.flagsWord_5, State.flagsWord_6, ErrorCode.bits_eq_zero]
    cases hdoc : docHeaderError s.hbufByte with
    | some e => simpa using ne_ok_of_docHeaderError hdoc
    | none => by_cases hfmt : s.decoded.bppOk = true ∧ s.decoded.compOk = true <;> simp [State.formatError, hfmt]
  · rw [hcode, verdict_decoded_code, he]
    rfl

end Sys2Proof.Machine

/-! ## Family other: NORM and SYNTH, the padding and size laws, and the row layout (R122 to R126) -/

namespace Sys2Proof.Machine

/-! ### The layout of a file -/

/-- A dimension or a size too large is the range error (R122, R123). -/
theorem layoutCalc_range {w h : Word} {b : Half} {m : Bool} {W H A : Nat} (hw : w.toInt = W) (hh : h.toInt = H)
    (hA : LeastMultipleOf4 (W * (b.toNat / 8)) A)
    (hbig : A > maxWord ∨ H * A > maxWord ∨ normOffBits m + H * A > maxWord) :
    layoutCalc w h b m = .error ⟨.arithRange, .range⟩ := by
  rw [layoutCalc, strideCalc_of_leastMultipleOf4 hw hh hA]
  by_cases hstride : A > maxWord ∨ H * A > maxWord
  · rw [if_pos hstride]
  · rw [if_neg hstride]
    exact if_pos (by tauto)

/-- The negative dimension error is StrideCalc's (R122). -/
theorem layoutCalc_negDim {w h : Word} (hneg : w.toInt < 0 ∨ h.toInt < 0) (b : Half) (m : Bool) :
    layoutCalc w h b m = .error ⟨.arithRange, .negDim⟩ := by
  rw [← sext32_eq_toInt, ← sext32_eq_toInt] at hneg
  rw [layoutCalc, strideCalc_negDim hneg]

/-- A layout that fits: the file's size, and the six numbers, none of them wrapped (R122, R123). -/
theorem layoutCalc_fits {w h : Word} {b : Half} {m : Bool} {W H A : Nat} (hw : w.toInt = W) (hh : h.toInt = H)
    (hA : LeastMultipleOf4 (W * (b.toNat / 8)) A) (hA32 : A ≤ maxWord) (hf32 : normOffBits m + H * A ≤ maxWord) :
    ∃ r, layoutCalc w h b m = .ok (r, normOffBits m + H * A) ∧
      r.regs.channels.toNat = b.toNat / 8 ∧ r.regs.rowStride.toNat = W * (b.toNat / 8) ∧ r.regs.aligned.toNat = A ∧
      r.regs.pad.toNat = A - W * (b.toNat / 8) ∧ r.regs.bufSize.toNat = W * H * (b.toNat / 8) ∧
      r.regs.diskSize.toNat = H * A := by
  have hcalc := (strideCalc_of_leastMultipleOf4 hw hh hA).trans (if_neg (by omega))
  refine ⟨_, ?_, regs_toNat hcalc⟩
  rw [layoutCalc, hcalc]
  exact if_neg (Nat.not_lt.mpr hf32)

/-- A number inside 32 bits is its pattern's value. -/
theorem toNat_ofNat_of_le_maxWord {n : Nat} (h : n ≤ maxWord) : (BitVec.ofNat 32 n).toNat = n := by
  rw [BitVec.toNat_ofNat]
  exact Nat.mod_eq_of_lt (Nat.lt_succ_of_le h)

theorem toNat_normInfoSize (m : Bool) : (BitVec.ofNat 32 (normInfoSize m)).toNat = normInfoSize m := by
  cases m <;> rfl

theorem toNat_normOffBits (m : Bool) : (BitVec.ofNat 32 (normOffBits m)).toNat = normOffBits m := by
  cases m <;> rfl

/-! ### NORM -/

/-- NORM's biSize meets the size check in both modes (R79, R122). -/
theorem sizeOk_normState (s : State) (r : StrideResult) (f : Nat) : (normState s r f).complete.sizeOk = true := by
  rw [State.sizeOk_iff]
  by_cases h : s.ih.bitCount = 32
  · refine .inr ?_
    show 124 ≤ (BitVec.ofNat 32 (normInfoSize s.mode32)).toNat
    rw [s.mode32_iff.mpr h]
    decide
  · exact .inl h

/-- Settles O14: NORM's errors are its layout's, and a layout that fits is stored unwrapped. -/
theorem normRecomputesDerivedFields : Obligations.NormRecomputesDerivedFields := by
  refine ⟨rfl, fun s hneg => exec_norm_of_error (layoutCalc_negDim hneg _ _),
    fun s W H A off size hw hh hA h32 h24 => ?_⟩
  obtain ⟨rfl, rfl⟩ : off = normOffBits s.mode32 ∧ size = normInfoSize s.mode32 := by
    by_cases hb : s.ih.bitCount = 32
    · rw [s.mode32_iff.mpr hb]
      exact h32 hb
    · rw [eq_false_of_ne_true (mt s.mode32_iff.mp hb)]
      exact h24 hb
  refine ⟨fun hbig => exec_norm_of_error (layoutCalc_range hw hh hA hbig), fun hA32 hf32 => ?_⟩
  obtain ⟨r, hr, hsc⟩ := layoutCalc_fits hw hh hA hA32 hf32
  obtain ⟨hchannels, hrow, haligned, hpad, hbuf, hdisk⟩ := hsc
  exact ⟨_, exec_norm_of_ok hr, rfl, toNat_normInfoSize _, toNat_normOffBits _, toNat_ofNat_of_le_maxWord hf32,
    hchannels, hrow, haligned, hpad, hbuf, hdisk, (State.flagsWord_1 _).trans (sizeOk_normState s r _)⟩

/-! ### SYNTH -/

/-- The bytes of a pixel that the A bit selects (R123). -/
theorem bppOfA_div_eight (a : Bool) : (bppOfA a).toNat / 8 = if a then 4 else 3 := by cases a <;> rfl

/-- FLAGS after SYNTH: every check passes, and the mode is the A bit (R123). -/
theorem flagsWord_synthState {a : Bool} {s : State} (hh : 0 < s.heightZ) (r : StrideResult) (f : Nat) :
    (synthState a s r f).complete.flagsWord = if a then 0xFF else 0x7F := by
  have horient : (synthState a s r f).complete.orientOk = true := decide_eq_true hh.le
  cases a with
  | true => rw [State.flagsWord_eq _ true true true true true true true true rfl rfl rfl rfl horient rfl rfl rfl]; rfl
  | false => rw [State.flagsWord_eq _ true true true true true true true false rfl rfl rfl rfl horient rfl rfl rfl]; rfl

/-- Settles O15: the width and the height are tested in order, then SYNTH's errors are its layout's, and a layout that
fits is stored with the blank headers. -/
theorem synthWritesBlankHeaders : Obligations.SynthWritesBlankHeaders := by
  have hW : ∀ s : State, s.widthZ = s.ih.width.toInt := fun s => sext32_eq_toInt _
  have hH : ∀ s : State, s.heightZ = s.ih.height.toInt := fun s => sext32_eq_toInt _
  refine ⟨rfl, rfl, fun a s => ⟨fun hw => exec_synth_of_width_nonpos ((hW s).trans_le hw) a,
    fun hw hh => exec_synth_of_height_nonpos (hw.trans_eq (hW s).symm) ((hH s).trans_le hh) a,
    fun W H A C off hw hh hW0 hH0 hC hoff hA => ?_⟩⟩
  have hwpos : 0 < s.widthZ := by
    rw [hW, hw]
    exact_mod_cast hW0
  have hhpos : 0 < s.heightZ := by
    rw [hH, hh]
    exact_mod_cast hH0
  obtain rfl : off = normOffBits a := hoff
  obtain rfl : C = (bppOfA a).toNat / 8 := hC.trans (bppOfA_div_eight a).symm
  refine ⟨fun hbig => exec_synth_of_error hwpos hhpos (layoutCalc_range hw hh hA hbig), fun hA32 hf32 => ?_⟩
  obtain ⟨r, hr, hsc⟩ := layoutCalc_fits hw hh hA hA32 hf32
  obtain ⟨hchannels, hrow, haligned, hpad, hbuf, hdisk⟩ := hsc
  refine ⟨_, exec_synth_of_ok hwpos hhpos hr, ?_, toNat_ofNat_of_le_maxWord hf32, hchannels, hrow, haligned, hpad, hbuf,
    hdisk, flagsWord_synthState hhpos r _⟩
  cases a <;> rfl

/-! ### After a layout is stored -/

/-- After STRIDE, NORM or SYNTH with CODE 0, SC holds StrideCalc's results for the registers as they stand (R121 to
R123). -/
theorem sc_of_code_zero {i : Instr} {s t : State} (hi : i = .stride ∨ i = .norm ∨ ∃ a, i = .synth a)
    (h : exec i s = .next t) (hcode : t.status.code = 0) :
    ∃ r, strideCalc t.ih.width t.ih.height t.ih.bitCount = .ok r ∧ t.sc = r.regs := by
  rcases exec_next_cases h with ⟨u, hu, rfl⟩ | ⟨e, he, rfl⟩
  · cases hu with
    | stride hr => exact ⟨_, hr, rfl⟩
    | norm hr | synth _ _ hr => exact ⟨_, (layoutCalc_ok hr).1, rfl⟩
    | enc henc => cases henc <;> simp at hi
    | _ => simp at hi
  · exact absurd hcode (s.raiseError_code_ne_zero (legal_of_mem_reportsOf i _ he.mem_reportsOf).2)

/-- A layout's file size is its header bytes and its pixel data (R122). -/
theorem toNat_fileSize {w h : Word} {b : Half} {m : Bool} {r : StrideResult} {f : Nat}
    (hr : layoutCalc w h b m = .ok (r, f)) :
    (BitVec.ofNat 32 f).toNat = (BitVec.ofNat 32 (normOffBits m)).toNat + r.regs.diskSize.toNat := by
  obtain ⟨hcalc, rfl, hf⟩ := layoutCalc_ok hr
  obtain ⟨-, -, -, -, -, hdisk⟩ := regs_toNat hcalc
  rw [toNat_ofNat_of_le_maxWord hf, toNat_normOffBits, hdisk]

/-- After NORM or SYNTH with CODE 0, FH_OFFBITS and FH_SIZE hold the layout's numbers (R122, R123). -/
theorem fh_of_code_zero {i : Instr} {s t : State} (hi : i = .norm ∨ ∃ a, i = .synth a)
    (h : exec i s = .next t) (hcode : t.status.code = 0) :
    t.fh.offBits.toNat = normOffBits t.mode32 ∧ t.fh.size.toNat = t.fh.offBits.toNat + t.sc.diskSize.toNat := by
  rcases exec_next_cases h with ⟨u, hu, rfl⟩ | ⟨e, he, rfl⟩
  · cases hu with
    | norm hr => exact ⟨toNat_normOffBits _, toNat_fileSize hr⟩
    | @synth a _ _ _ _ _ hr =>
      have hmode : ∀ r f, (synthState a s r f).complete.mode32 = a := by
        cases a <;> exact fun _ _ => rfl
      rw [hmode]
      exact ⟨toNat_normOffBits _, toNat_fileSize hr⟩
    | enc henc => cases henc <;> simp at hi
    | _ => simp at hi
  · exact absurd hcode (s.raiseError_code_ne_zero (legal_of_mem_reportsOf i _ he.mem_reportsOf).2)

/-- A padding register is 0 where its number is. -/
theorem pad_eq_zero_iff {v : Word} : v = 0 ↔ v.toNat = 0 :=
  ⟨fun h => h ▸ rfl, fun h => BitVec.eq_of_toNat_eq h⟩

/-- Settles O16: the aligned row is the least multiple of 4 at or above the row, which is the width times 4 or 3. -/
theorem paddingLaws : Obligations.PaddingLaws := by
  intro i s t hi h hcode
  obtain ⟨r, hr, hsc⟩ := sc_of_code_zero hi h hcode
  obtain ⟨hw, -, hc, hrow, haligned, hpad, -⟩ := strideCalc_ok hr
  obtain ⟨-, hrow', -, hpad', -, -⟩ := regs_toNat hr
  rw [hsc, pad_eq_zero_iff, hpad', hrow', ← sext32_eq_toInt]
  refine ⟨fun hb => ?_, fun hb => ?_, by omega⟩
  · rw [hc, hb, show (32 : Half).toNat / 8 = 4 from rfl] at hrow
    omega
  · rw [hc, hb, show (24 : Half).toNat / 8 = 3 from rfl] at hrow
    omega

/-- Settles O17: FH_SIZE is the header bytes and H aligned rows, and an aligned row is a row and its padding. -/
theorem fileSizeLaw : Obligations.FileSizeLaw := by
  intro i s t hi h hcode
  obtain ⟨r, hr, hsc⟩ := sc_of_code_zero (.inr hi) h hcode
  obtain ⟨-, hsize⟩ := fh_of_code_zero hi h hcode
  obtain ⟨hw, hh, -, hrow, -, hpad, -, hbuf, hdisk, -⟩ := strideCalc_ok hr
  obtain ⟨hc', -, -, hpad', hbuf', hdisk'⟩ := regs_toNat hr
  refine ⟨?_, hsize, ?_⟩
  · rw [hsize, hsc, hdisk', hbuf', hpad', hdisk, hbuf, hpad, hrow, ← sext32_eq_toInt]
    push_cast [Int.toNat_of_nonneg hw, Int.toNat_of_nonneg hh]
    ring
  · rw [hsc, hc', hbuf', hbuf, ← sext32_eq_toInt, ← sext32_eq_toInt]
    push_cast [Int.toNat_of_nonneg hw, Int.toNat_of_nonneg hh]
    rfl

/-! ### Rows of equal length -/

/-- `h` rows of `n` bytes each are `h * n` bytes. -/
theorem length_flatMap_rows {f : Nat → List Byte} {n h : Nat} (hf : ∀ y < h, (f y).length = n) :
    ((List.range h).flatMap f).length = h * n := by
  rw [List.length_flatMap, List.map_congr_left (g := fun _ => n) fun y hy => hf y (List.mem_range.mp hy)]
  simp

/-- Row `y` of `h` rows of `n` bytes each starts at byte `y * n`. -/
theorem take_drop_flatMap_rows {f : Nat → List Byte} {n r h y : Nat} (hf : ∀ y < h, (f y).length = n) (hr : r ≤ n)
    (hy : y < h) : (((List.range h).flatMap f).drop (y * n)).take r = (f y).take r := by
  induction h with
  | zero => exact absurd hy (Nat.not_lt_zero y)
  | succ h ih =>
    have hlen : ((List.range h).flatMap f).length = h * n := length_flatMap_rows fun y hy => hf y (by omega)
    rw [List.range_succ, List.flatMap_append, List.flatMap_singleton]
    rcases Nat.lt_succ_iff_lt_or_eq.mp hy with hlt | rfl
    · have hle : y * n + n ≤ h * n := by
        rw [← Nat.succ_mul]
        exact Nat.mul_le_mul_right n hlt
      rw [List.drop_append_of_le_length (by omega), List.take_append_of_le_length (by rw [List.length_drop]; omega),
        ih (fun y hy => hf y (by omega)) hlt]
    · rw [← hlen, List.drop_left]

/-- A buffer cut into rows of `r` bytes, put together again. -/
theorem flatMap_take_drop (buf : List Byte) (r h : Nat) :
    ((List.range h).flatMap fun y => (buf.drop (y * r)).take r) = buf.take (h * r) := by
  induction h with
  | zero => simp
  | succ h ih => rw [List.range_succ, List.flatMap_append, ih, List.flatMap_singleton, Nat.succ_mul, List.take_add]

/-! ### The row layout -/

section
variable {sc : StrideRegs} {buf : List Byte} {h : Nat} (hbuf : buf.length = h * sc.rowStride.toNat)
include hbuf

/-- A row inside the buffer has its SC_ROWSTRIDE bytes (R126). -/
theorem length_bufRow {y : Nat} (hy : y < h) :
    ((buf.drop (sc.bufStart y)).take sc.rowStride.toNat).length = sc.rowStride.toNat := by
  have hle : (y + 1) * sc.rowStride.toNat ≤ h * sc.rowStride.toNat := Nat.mul_le_mul_right _ hy
  rw [Nat.succ_mul] at hle
  rw [List.length_take, List.length_drop, StrideRegs.bufStart]
  omega

/-- An emitted row is SC_ALIGNED bytes long: its pixel bytes and its padding (R126). -/
theorem length_emitRow (hpad : sc.aligned.toNat = sc.rowStride.toNat + sc.pad.toNat) {y : Nat} (hy : y < h) :
    (sc.emitRow buf y).length = sc.aligned.toNat := by
  rw [StrideRegs.emitRow, List.length_append, length_bufRow hbuf hy, List.length_replicate, hpad]

/-- A row read back from the emitted rows is the buffer's (R126). -/
theorem readRow_emitPixels (hpad : sc.aligned.toNat = sc.rowStride.toNat + sc.pad.toNat) (header : List Byte) {y : Nat}
    (hy : y < h) :
    sc.readRow (header ++ sc.emitPixels buf h) header.length y =
      (buf.drop (y * sc.rowStride.toNat)).take sc.rowStride.toNat := by
  rw [StrideRegs.readRow, StrideRegs.rowStart, List.drop_length_add_append, StrideRegs.emitPixels,
    take_drop_flatMap_rows (fun y hy => length_emitRow hbuf hpad hy) (by omega) hy, StrideRegs.emitRow,
    List.take_left' (length_bufRow hbuf hy)]
  rfl

/-- The emitted rows start where the header ends, and the file ends where row `h` would start (R126). -/
theorem length_emitPixels (hpad : sc.aligned.toNat = sc.rowStride.toNat + sc.pad.toNat) (header : List Byte) :
    (header ++ sc.emitPixels buf h).length = sc.rowStart header.length h := by
  rw [List.length_append, StrideRegs.emitPixels, length_flatMap_rows fun y hy => length_emitRow hbuf hpad hy]
  rfl

end

/-- Settles O18: each row is read back as the buffer's, and the buffer is its rows. -/
theorem rowLayoutRoundTrip : Obligations.RowLayoutRoundTrip := by
  intro sc header buf h hsc hbuf
  obtain ⟨w, h', -, -, -, -, -, hpad, -⟩ := hsc
  refine ⟨?_, fun y => ?_, length_emitPixels hbuf hpad header⟩
  · calc sc.readPixels (header ++ sc.emitPixels buf h) header.length h
        = (List.range h).flatMap fun y => (buf.drop (y * sc.rowStride.toNat)).take sc.rowStride.toNat :=
          List.flatMap_congr fun y hy => readRow_emitPixels hbuf hpad header (List.mem_range.mp hy)
      _ = buf.take (h * sc.rowStride.toNat) := flatMap_take_drop buf _ h
      _ = buf := List.take_of_length_le hbuf.le
  · rw [StrideRegs.rowEnd, StrideRegs.rowStart, StrideRegs.rowStart, Nat.succ_mul, hpad]
    omega

/-- The header image is FH_OFFBITS' number of bytes (R79, R83). -/
theorem length_headerImage (s : State) : s.headerImage.length = normOffBits s.mode32 := by
  rw [State.headerImage, List.length_map, List.length_range]
  cases s.mode32 <;> rfl

/-- Settles O19: the header image is as long as the pixel data's offset, and the rows end where row H would start. -/
theorem emittedFileHasFileSize : Obligations.EmittedFileHasFileSize := by
  intro i s t buf hi h hcode hlen
  obtain ⟨r, hr, hsc⟩ := sc_of_code_zero (.inr hi) h hcode
  obtain ⟨hoff, hsize⟩ := fh_of_code_zero hi h hcode
  obtain ⟨-, -, -, hrow, -, hpad, -, hbuf, hdisk, -⟩ := strideCalc_ok hr
  obtain ⟨-, hrow', haligned', hpad', hbuf', hdisk'⟩ := regs_toNat hr
  have himage : t.headerImage.length = t.fh.offBits.toNat := (length_headerImage t).trans hoff.symm
  have hrows : buf.length = t.ih.height.toInt.toNat * t.sc.rowStride.toNat := by
    rw [hlen, hsc, hbuf', hrow', hbuf, hrow, sext32_eq_toInt t.ih.height]
    ring
  have haligned : t.sc.aligned.toNat = t.sc.rowStride.toNat + t.sc.pad.toNat := by
    rw [hsc, haligned', hrow', hpad', hpad]
  refine ⟨himage, ?_⟩
  rw [length_emitPixels hrows haligned, StrideRegs.rowStart, himage, hsize, hsc, haligned', hdisk', hdisk,
    sext32_eq_toInt]

end Sys2Proof.Machine
